-- ==== Sys2Proof/Word.lean ====
section
/-!
DEFINITION. The machine's two storage units: the byte of Program space and the word of the stack and data memory.
-/

namespace Sys2Proof

/-- A byte of Program space: 8 bits (00_scope.md section 4, 20_memory.md R30). -/
abbrev Byte := BitVec 8

/-- A word, the type of every stack element and every data-memory element: `XLEN = 32` bits, read as
a signed two's complement integer through `BitVec.toInt` (10_state.md R18, decision D1; notes/assumptions/5.md,
DEDUCED, safe: from reset every value lies in `[0, 8191]`, R25, so the width cannot be observed). -/
abbrev Word := BitVec 32

end Sys2Proof
end

