-- ==== Sys2Proof/Config.lean ====
section
/-!
DEFINITION. The implementation parameters of 00_scope.md R4. The values the source fixes are constants; the one
parameter left open that takes a value from a set, the assembler's unknown-mnemonic policy, is a type with its default.
`PROG_LEN` is the length of the Program in the state, `STACK_DEPTH` and `PC_BITS` are unbounded (R4, D3, D4).
No rule of the spec leaves a value open, so there is no free value here.
-/

namespace Sys2Proof.Config

/-- `LEN_S`: the length in bytes of a short-format instruction (R4, R50). -/
abbrev shortLength : Nat := 2

/-- `LEN_L`: the length in bytes of the long-format instruction (R4, R50). -/
abbrev longLength : Nat := 5

/-- One more than the largest operand the short format carries: `2 ^ OPD_S_BITS`, `OPD_S_BITS = 13` (R4, R51). -/
abbrev shortOperandBound : Nat := 8192

/-- One more than the largest operand the long format carries: `2 ^ OPD_L_BITS`, `OPD_L_BITS = 29` (R4, R52; 90_conflicts.md C1). -/
abbrev longOperandBound : Nat := 536870912

/-- `MEM_WORDS`: the number of words of data memory (R4, R17). -/
abbrev memWords : Nat := 65536

/-- What the assembler does with an unrecognised mnemonic (R68): fail the whole assembly, or let the entry
contribute no bytes, as the reference behaviour does. -/
inductive UnknownMnemonicPolicy where
  | error
  | skip
deriving DecidableEq, Repr

/-- `UNKNOWN_MNEMONIC_POLICY`, default `error` (R4, R68, D13). Assembler only; the hardware is not affected. -/
def unknownMnemonicPolicy : UnknownMnemonicPolicy := .error

end Sys2Proof.Config
end

