-- ==== Sys2Proof/Syntax.lean ====
section
/-!
DEFINITION. The instruction set: one constructor per row of spec/opcode_table.json.
-/

namespace Sys2Proof

/-- An instruction: a tagged value with one unsigned integer operand (00_scope.md section 5, R1). The operand's
valid magnitude depends on the variant (`Instr.wellFormed`). There is no other form, modifier or qualifier. -/
inductive Instr where
  /-- `Sqrt(address)`: the operand is an absolute word address (R120, R123). -/
  | sqrt (address : Nat)
  /-- `WriteMem(offset)`: the operand is added to a popped base (R111, R112). -/
  | writeMem (offset : Nat)
  /-- `LoadConst(k)`: the operand is the constant pushed (R100). -/
  | loadConst (k : Nat)
  /-- `ReadMem(offset)`: the operand is added to a popped base (R110, R112). -/
  | readMem (offset : Nat)
deriving DecidableEq, Repr

end Sys2Proof
end

