-- ==== Sys2Proof/WellFormed.lean ====
section
/-!
DEFINITION. Well-formed instructions: those whose operand fits the field the wire gives it.
-/

namespace Sys2Proof

/-- The operand fits its wire field: 13 bits in the short format (R51, R55, R63), 29 bits in the long one
(R52, R56; 90_conflicts.md C1). These are exactly the instructions the decoder can return. The narrower ranges of
R66 bind the assembler only (`assemblerAccepts`). -/
def Instr.wellFormed : Instr → Bool
  | .sqrt address => address < Config.longOperandBound
  | .writeMem offset => offset < Config.shortOperandBound
  | .loadConst k => k < Config.shortOperandBound
  | .readMem offset => offset < Config.shortOperandBound

end Sys2Proof
end

