-- ==== Sys2Proof/Decode.lean ====
section
/-!
DEFINITION. The opcode map, the fetch of Program bytes, the `Decode` function (30_encoding.md R50 to R64, R73, R74),
the encoder written from the same layouts (R51, R52, R65), and the host's numbering of an instruction's bits.
-/

namespace Sys2Proof

/-! ## The opcode map -/

/-- The four operations the opcode ID can select (R53). -/
inductive Opcode where
  | sqrt
  | writeMem
  | loadConst
  | readMem
deriving DecidableEq, Repr

/-- The 3-bit opcode ID of an operation (R53). -/
def Opcode.id : Opcode → Nat
  | .sqrt => 1
  | .writeMem => 2
  | .loadConst => 4
  | .readMem => 7

/-- The declared width in bytes: a function of the opcode ID alone (R54). -/
def Opcode.width : Opcode → Nat
  | .sqrt => Config.longLength
  | .writeMem => Config.shortLength
  | .loadConst => Config.shortLength
  | .readMem => Config.shortLength

/-- The operation an opcode ID selects; 0, 3, 5 and 6 are unrecognised and select none (R53, R60). -/
def recogniseOpcode (opcodeId : BitVec 3) : Option Opcode :=
  if opcodeId = 1 then some .sqrt
  else if opcodeId = 2 then some .writeMem
  else if opcodeId = 4 then some .loadConst
  else if opcodeId = 7 then some .readMem
  else none

/-- The operation of an instruction. -/
def Instr.opcode : Instr → Opcode
  | .sqrt _ => .sqrt
  | .writeMem _ => .writeMem
  | .loadConst _ => .loadConst
  | .readMem _ => .readMem

/-- The operand of an instruction. -/
def Instr.operand : Instr → Nat
  | .sqrt address => address
  | .writeMem offset => offset
  | .loadConst k => k
  | .readMem offset => offset

/-- The instruction of an operation with an operand. -/
def Opcode.withOperand : Opcode → Nat → Instr
  | .sqrt, address => .sqrt address
  | .writeMem, offset => .writeMem offset
  | .loadConst, k => .loadConst k
  | .readMem, offset => .readMem offset

/-- The number of bytes an instruction occupies in the Program: 2 or 5 (R50, R54). -/
def Instr.width (i : Instr) : Nat := i.opcode.width

/-! ## Fields -/

/-- `byte1[7:5]`, the opcode ID of every instruction (R50, R51, R52). -/
def opcodeField (byte1 : Byte) : BitVec 3 := byte1.extractLsb' 5 3

/-- `byte1[4:0]`, the operand's top five bits in both formats (R51, R52). -/
def operandHigh (byte1 : Byte) : BitVec 5 := byte1.extractLsb' 0 5

/-- The short-format operand `byte1[4:0] ‖ byte2`: 13 bits, big-endian, zero-extended (R34, R55). -/
def shortOperand (byte1 byte2 : Byte) : BitVec 13 := operandHigh byte1 ++ byte2

/-- The long-format operand `byte1[4:0] ‖ byte2 ‖ byte3 ‖ byte4`: 29 bits, big-endian, zero-extended; byte 5, the
pad, contributes nothing (R34, R56, R57). -/
def longOperand (byte1 byte2 byte3 byte4 : Byte) : BitVec 29 :=
  operandHigh byte1 ++ byte2 ++ byte3 ++ byte4

/-! ## Fetch and decode -/

/-- `ProgByte(off)`, the instruction-fetch primitive (R43). The spec defines it for `off < PROG_LEN` only and the
decoder uses it only there; the value outside is never used (notes/assumptions/2.md, DESIGN CHOICE, safe). -/
def progByte (prog : List Byte) (off : Nat) : Byte := prog.getD off 0

/-- The four results of `Decode` (R58). -/
inductive DecodeResult where
  /-- A decoded instruction and the bytes it consumes. -/
  | instr (i : Instr) (width : Nat)
  /-- No byte is left at the offset (R59, R74). -/
  | endOfProgram
  /-- Fewer bytes remain than the declared width (R61). -/
  | truncated
  /-- The opcode ID is 0, 3, 5 or 6 (R60; the name is the spec's, D9). -/
  | unknownOpcode
deriving DecidableEq, Repr

/-- The operand of a recognised operation whose bytes are all present at `off` (R55, R56, R63). The pad byte
`ProgByte(off+4)` of `Sqrt` is not looked at (R57, D7; notes/assumptions/9.md, DEDUCED, unsafe). -/
def operandAt (op : Opcode) (prog : List Byte) (off : Nat) : Nat :=
  match op with
  | .sqrt =>
    (longOperand (progByte prog off) (progByte prog (off + 1)) (progByte prog (off + 2))
      (progByte prog (off + 3))).toNat
  | .writeMem => (shortOperand (progByte prog off) (progByte prog (off + 1))).toNat
  | .loadConst => (shortOperand (progByte prog off) (progByte prog (off + 1))).toNat
  | .readMem => (shortOperand (progByte prog off) (progByte prog (off + 1))).toNat

/-- `Decode(PROG, PROG_LEN, off)` (R58), with the checks in the order of R62: end of program, unrecognised opcode,
truncation (D5, and `EndOfProgram` past the end, R74, D6; notes/assumptions/8.md, DEDUCED, unsafe as to which clean cause). -/
def decode (prog : List Byte) (off : Nat) : DecodeResult :=
  if prog.length ≤ off then .endOfProgram
  else
    match recogniseOpcode (opcodeField (progByte prog off)) with
    | none => .unknownOpcode
    | some op =>
      if prog.length - off < op.width then .truncated
      else .instr (op.withOperand (operandAt op prog off)) op.width

/-! ## Encode -/

/-- A short-format instruction's bytes: the general 2-byte rule (R51, R65). -/
def encodeShort (opcodeId operand : Nat) : List Byte :=
  [BitVec.ofNat 8 ((opcodeId <<< 5) ||| ((operand >>> 8) &&& 0x1F)),
   BitVec.ofNat 8 (operand &&& 0xFF)]

/-- The long-format instruction's bytes, the pad byte `0x00` last (R52, R57, R65). The mask drops operand bit 29 and
above (R72, D12; notes/assumptions/13.md). -/
def encodeLong (opcodeId operand : Nat) : List Byte :=
  [BitVec.ofNat 8 ((opcodeId <<< 5) ||| ((operand >>> 24) &&& 0x1F)),
   BitVec.ofNat 8 ((operand >>> 16) &&& 0xFF),
   BitVec.ofNat 8 ((operand >>> 8) &&& 0xFF),
   BitVec.ofNat 8 (operand &&& 0xFF),
   0x00]

/-- `Encode` without the assembler's range check (R65). -/
def encode : Instr → List Byte
  | .sqrt address => encodeLong 1 address
  | .writeMem offset => encodeShort 2 offset
  | .loadConst k => encodeShort 4 k
  | .readMem offset => encodeShort 7 offset

/-! ## The host's numbering of an instruction's bits -/

/-- The bytes of an instruction whose bits are `w`, numbered as spec/opcode_table.json numbers them: one string of
`nbits` bits, byte 1 (the lowest offset) in the most significant eight (00_scope.md section 4). Zero bytes follow, up
to the longest instruction (notes/assumptions/15.md, DEDUCED, safe). -/
def tableBytes (nbits w : Nat) : List Byte :=
  let n := (nbits + 7) / 8
  (List.range n).map (fun k => BitVec.ofNat 8 (w >>> (8 * (n - 1 - k))))
    ++ List.replicate (Config.longLength - n) 0

/-- The instruction the decoder reads from the table's bits, if it reads one. -/
def decodeTableWord (nbits w : Nat) : Option Instr :=
  match decode (tableBytes nbits w) 0 with
  | .instr i _ => some i
  | .endOfProgram => none
  | .truncated => none
  | .unknownOpcode => none

end Sys2Proof
end

