-- ==== Sys2Proof/Machine/State.lean ====
section
/-!
DEFINITION. The architectural state of one engine (10_state.md R10 to R24), its value after reset, and the model's
reasons to stop.
-/

namespace Sys2Proof.Machine

/-- The two states of the engine's finite-state machine (R11, R80). -/
inductive RunState where
  | running
  | halted
deriving DecidableEq, Repr

/-- The values of the `halt_reason` register (R20, R130). -/
inductive HaltReason where
  /-- Not halted. -/
  | none
  /-- Clean: decode at the end of the Program (R59). -/
  | endOfProgram
  /-- Clean: a recognised opcode with bytes missing (R61). -/
  | truncated
  /-- Clean: opcode ID 0, 3, 5 or 6 (R60). -/
  | unknownOpcode
  /-- Error: a pop of the empty stack (R131). -/
  | stackUnderflow
  /-- Error: an address outside `[0, 65536)` (R132). -/
  | memoryRangeError
  /-- Error: a negative radicand (R133). -/
  | negativeRadicandError
deriving DecidableEq, Repr

/-- Data memory: 65536 words at word addresses 0 to 65535 (R17, R31), held as the list of the words that differ from
zero, by rising address (`Memory.wf`; notes/assumptions/4.md, DESIGN CHOICE, safe). A word is the unit: it has no
bytes and no byte order (R31, R35). -/
abbrev Memory := List (Nat × Word)

/-- The state of one engine (R10). The Program is an input fixed from reset to halt, not state, in R19; it stands here
because the host's step takes a state only (notes/assumptions/1.md, DESIGN CHOICE, safe: no step changes it). -/
structure State where
  /-- `PROG`; its length is `PROG_LEN` (R19). -/
  prog : List Byte
  /-- `run_state` (R11). -/
  runState : RunState
  /-- `pc`, a byte offset into the Program (R12). -/
  pc : Nat
  /-- `stack`, bottom first, the last element the top (R14, R15). -/
  stack : List Word
  /-- `mem` (R17). -/
  mem : Memory
  /-- `halt_reason` (R20). -/
  haltReason : HaltReason
  /-- `halt_pc` (R20). -/
  haltPc : Nat
  /-- `halt_addr`, an unwrapped integer (R20, R132). -/
  haltAddr : Int
deriving DecidableEq, Repr

/-- The machine right after reset (R24, R81): every field at the value the spec states. The Program bound at this
reset is the empty one (notes/assumptions/1.md, DESIGN CHOICE); `State.load` is the reset with a Program. -/
def State.reset : State where
  prog := []
  runState := .running
  pc := 0
  stack := []
  mem := []
  haltReason := .none
  haltPc := 0
  haltAddr := 0

/-- Reasons to stop with a fault: none. Every exceptional event of this machine is a halt entry the spec describes
whole (R83, R136), so it is a next state; nobody raises a fault (notes/assumptions/12.md, safe). -/
inductive Fault where
deriving DecidableEq, Repr

/-- Reasons to refuse. -/
inductive Refusal where
  /-- Raised by an arm of `exec` whose instruction has no meaning yet (safe: the model stops). No arm raises it. -/
  | notModelled (mnemonic : String)
deriving DecidableEq, Repr

end Sys2Proof.Machine
end

