-- ==== Sys2Proof/Machine/Flags.lean ====
section
/-!
DEFINITION. The engine's internal checks. The machine has no flags, condition codes or predicates (10_state.md R22);
what it computes in their place are the comparisons of 40_engine_fsm.md R93 (address in range, radicand negative,
stack empty) and the classes of the halt causes (60_exceptions.md R130, R134).
-/

namespace Sys2Proof.Machine

/-- `0 <= addr < 65536`, a comparison of mathematical integers: a negative address is no wrap to the top of memory,
and 65536 no wrap to the bottom (R33). -/
def addressInRange (address : Int) : Bool := 0 ≤ address && address < Config.memWords

/-- `v < 0` for a popped radicand, read as a signed word (R133). Zero is not negative. -/
def radicandNegative (v : Word) : Bool := v.toInt < 0

/-- The numeric cause code of a halt reason (R130; the numbers are the spec's own, D10, notes/assumptions/10.md). -/
def HaltReason.code : HaltReason → Nat
  | .none => 0
  | .endOfProgram => 1
  | .truncated => 2
  | .unknownOpcode => 3
  | .stackUnderflow => 4
  | .memoryRangeError => 5
  | .negativeRadicandError => 6

/-- The clean halts (R134). -/
def HaltReason.isClean : HaltReason → Bool
  | .none => false
  | .endOfProgram => true
  | .truncated => true
  | .unknownOpcode => true
  | .stackUnderflow => false
  | .memoryRangeError => false
  | .negativeRadicandError => false

/-- The execution errors: a host's test for "did the program fail" (R134). -/
def HaltReason.isError : HaltReason → Bool
  | .none => false
  | .endOfProgram => false
  | .truncated => false
  | .unknownOpcode => false
  | .stackUnderflow => true
  | .memoryRangeError => true
  | .negativeRadicandError => true

end Sys2Proof.Machine
end

