-- ==== Sys2Proof/Machine/Ops.lean ====
section
/-!
DEFINITION. The named operations every instruction is written with: data memory, the stack, the advance of `pc`,
and the machine's one "trap", the halt entry (clean halts and execution errors). There is no return from a halt
(60_exceptions.md R138): only reset, `State.load`, starts a new run.
-/

namespace Sys2Proof.Machine

/-- What a step answers. -/
abbrev Result := Host.Outcome State Fault Refusal

/-! ## Data memory -/

/-- What a word no instruction has written reads as (R24, R32, R161). -/
def unlistedWord : Word := 0

/-- The canonical form: addresses strictly rising, each inside the 65536 words, no entry equal to what an unlisted
address reads as. -/
abbrev Memory.wf (m : Memory) : Prop :=
  m.Pairwise (fun x y => x.1 < y.1) ∧ ∀ c ∈ m, c.1 < Config.memWords ∧ c.2 ≠ unlistedWord

/-- `MemRead(addr, 1)` (R32). Every instruction checks the range first (`withDataAddress`). -/
def memRead (m : Memory) (a : Nat) : Word :=
  match m with
  | [] => unlistedWord
  | (b, w) :: rest => if a = b then w else memRead rest a

/-- What memory lists for a word: nothing when the word is what an unlisted address reads as. -/
def listedCell (a : Nat) (v : Word) : Memory := if v = unlistedWord then [] else [(a, v)]

/-- `MemWrite(addr, 1, v)` (R32): word `a` becomes `v`, every other word is unchanged, the canonical form is kept. -/
def memWrite (m : Memory) (a : Nat) (v : Word) : Memory :=
  match m with
  | [] => listedCell a v
  | (b, w) :: rest =>
    if a < b then listedCell a v ++ (b, w) :: rest
    else if a = b then listedCell a v ++ rest
    else (b, w) :: memWrite rest a v

/-! ## The stack and the program counter -/

/-- `push(v)` (R15): always succeeds, the stack is unbounded (R16, D3; notes/assumptions/7.md, DEDUCED, unsafe for a
smaller stack). -/
def push (v : Word) (s : State) : State := { s with stack := s.stack ++ [v] }

/-- The successful part of `pop()` (R15): the top and the state without it, if there is a top. -/
def pop (s : State) : Option (Word × State) :=
  match s.stack.getLast? with
  | none => none
  | some v => some (v, { s with stack := s.stack.dropLast })

/-- `pc <- pc + width`, the last effect of an instruction that succeeds (R13, R86). -/
def advance (width : Nat) (s : State) : State := { s with pc := s.pc + width }

/-- `MemWrite` on the state's data memory (R32). -/
def store (a : Nat) (v : Word) (s : State) : State := { s with mem := memWrite s.mem a v }

/-! ## Halt entry -/

/-- What every halt does (R83, R136): `run_state`, the three report registers, and nothing else; `pc`, the stack and
memory keep their values (the report registers are the spec's rendering, D9; notes/assumptions/10.md, DEDUCED). -/
def haltWith (reason : HaltReason) (address : Int) (s : State) : State :=
  { s with runState := .halted, haltReason := reason, haltPc := s.pc, haltAddr := address }

/-- `halt(C)`, a clean halt (R83). -/
def cleanHalt (reason : HaltReason) (s : State) : Result := .next (haltWith reason 0 s)

/-- The execution errors with what they carry (R130). -/
inductive ExecError where
  /-- R131: carries no value. -/
  | stackUnderflow
  /-- R132: carries the offending address, unwrapped. -/
  | memoryRangeError (address : Int)
  /-- R133: carries no value. -/
  | negativeRadicandError
deriving DecidableEq, Repr

/-- The `halt_reason` of an execution error (R130, R136). -/
def ExecError.reason : ExecError → HaltReason
  | .stackUnderflow => .stackUnderflow
  | .memoryRangeError _ => .memoryRangeError
  | .negativeRadicandError => .negativeRadicandError

/-- The `halt_addr` of an execution error: the offending address, 0 for every cause but `MemoryRangeError` (R136). -/
def ExecError.address : ExecError → Int
  | .stackUnderflow => 0
  | .memoryRangeError address => address
  | .negativeRadicandError => 0

/-- `raise E(info)` inside an instruction (R136): TAKING AN EXCEPTION on this machine. The state given is the one the
failing check sees, so the pops already made stay made (R144, D11; notes/assumptions/11.md, DEDUCED, unsafe). -/
def raise (e : ExecError) (s : State) : Result := .next (haltWith e.reason e.address s)

/-! ## The checked forms the instructions use -/

/-- `v = pop()` and the rest of the instruction: `StackUnderflow` on the empty stack (R15, R131). -/
def withPop (s : State) (rest : Word → State → Result) : Result :=
  match pop s with
  | none => raise .stackUnderflow s
  | some (v, s') => rest v s'

/-- The range check of an address about to be accessed, and the rest of the instruction with the word index
(R33, R132). -/
def withDataAddress (address : Int) (s : State) (rest : Nat → Result) : Result :=
  if addressInRange address then rest address.toNat else raise (.memoryRangeError address) s

/-! ## Reset with a Program, and the state of a halted engine -/

/-- Reset is the creation of an engine, with the Program and `PROG_LEN` bound (R160, R162): from here the first step
decodes the byte at offset 0 (notes/assumptions/2.md says how a program comes to run). -/
def State.load (prog : List Byte) : State := { State.reset with prog := prog }

/-- What the model's step answers in `HALTED`: "nothing is decoded, nothing changes, and the state stays as it is"
(R87; notes/assumptions/3.md, DESIGN CHOICE, unsafe for claims that count steps). -/
def stepHalted (s : State) : Result := .next s

/-- The bytes `bs` laid over the Program from offset `off`, which is filled up with zero bytes if it ends before. -/
def overlay (prog : List Byte) (off : Nat) (bs : List Byte) : List Byte :=
  (prog ++ List.replicate (off - prog.length) 0).take off ++ bs ++ prog.drop (off + bs.length)

/-- An engine that runs, for `State.withFetchWord`: a running one as it is, a halted one with the report as reset
leaves it, so that `halt_reason = None` if and only if it runs (R20, R24). -/
def resume (s : State) : State :=
  match s.runState with
  | .running => s
  | .halted => { s with runState := .running, haltReason := .none, haltPc := 0, haltAddr := 0 }

/-- The bytes `bs` placed where the next step decodes, in an engine that runs (notes/assumptions/15.md). -/
def armFetch (bs : List Byte) (s : State) : State :=
  { resume s with prog := overlay s.prog s.pc bs }

end Sys2Proof.Machine
end

