-- ==== Sys2Proof/Machine/Operands.lean ====
section
/-!
DEFINITION. The operand forms and the two computations of the machine (40_engine_fsm.md R93): the pushed constant,
base plus offset, the absolute address, and the integer square root.
-/

namespace Sys2Proof.Machine

/-- `zext_XLEN(k)`: the constant of `LoadConst` as a non-negative word, never sign-extended (R100). -/
def constantWord (k : Nat) : Word := BitVec.ofNat 32 k

/-- `address = b + offset` (R112): the base as a signed integer, the offset zero-extended, the sum a sum of
mathematical integers that wraps at no width (D2; notes/assumptions/6.md, DEDUCED, safe from reset). -/
def baseOffsetAddress (b : Word) (offset : Nat) : Int := b.toInt + (offset : Int)

/-- The address of `Sqrt`: the literal operand, no base added (R123). -/
def absoluteAddress (address : Nat) : Int := (address : Int)

/-- `isqrt` on the low `2 * fuel` bits: the root of `v / 4`, doubled, plus one if that still fits. -/
def isqrtFuel (fuel v : Nat) : Nat :=
  match fuel with
  | 0 => 0
  | fuel + 1 =>
    if v < 2 then v
    else
      let r := 2 * isqrtFuel fuel (v / 4)
      if (r + 1) * (r + 1) ≤ v then r + 1 else r

/-- `isqrt(v)`, the integer floor of the square root of `v`, exact for every `v` (R121, D20). -/
def isqrt (v : Nat) : Nat := isqrtFuel v v

/-- The square root of a non-negative word as a word; it always fits (R121). -/
def rootWord (v : Word) : Word := BitVec.ofNat 32 (isqrt v.toInt.toNat)

end Sys2Proof.Machine
end

