-- ==== Sys2Proof/Machine/Constant.lean ====
section
/-!
DEFINITION. The meaning of `LoadConst` (41_loadconst.md).
-/

namespace Sys2Proof.Machine

/-- `LoadConst(k)`: push k; pc += 2; always succeeds (R100). -/
def execLoadConst (k : Nat) (s : State) : Result :=
  .next (advance Config.shortLength (push (constantWord k) s))

end Sys2Proof.Machine
end

