-- ==== Sys2Proof/Machine/MemoryAccess.lean ====
section
/-!
DEFINITION. The meanings of `ReadMem` and `WriteMem` (42_readmem_writemem.md).
-/

namespace Sys2Proof.Machine

/-- `ReadMem(offset)`: pop the base, check base plus offset, push the word read; pc += 2 (R110). The offset is the
whole 13-bit field, with no check of the assembler's range (R63, R84, D8). -/
def execReadMem (offset : Nat) (s : State) : Result :=
  withPop s fun b s₁ =>
    withDataAddress (baseOffsetAddress b offset) s₁ fun a =>
      .next (advance Config.shortLength (push (memRead s₁.mem a) s₁))

/-- `WriteMem(offset)`: pop the value, pop the base, check base plus offset, store the value whole; pc += 2
(R111, R113). -/
def execWriteMem (offset : Nat) (s : State) : Result :=
  withPop s fun v s₁ =>
    withPop s₁ fun b s₂ =>
      withDataAddress (baseOffsetAddress b offset) s₂ fun a =>
        .next (advance Config.shortLength (store a v s₂))

end Sys2Proof.Machine
end

