-- ==== Sys2Proof/Machine/SquareRoot.lean ====
section
/-!
DEFINITION. The meaning of `Sqrt` (43_sqrt.md).
-/

namespace Sys2Proof.Machine

/-- `Sqrt(address)`: pop the radicand, check its sign, take the root, check the literal address, store the root;
pc += 5, which skips the pad byte (R86, R120). The checks stand in the order of R122. -/
def execSqrt (address : Nat) (s : State) : Result :=
  withPop s fun v s₁ =>
    if radicandNegative v then raise .negativeRadicandError s₁
    else
      withDataAddress (absoluteAddress address) s₁ fun a =>
        .next (advance Config.longLength (store a (rootWord v) s₁))

end Sys2Proof.Machine
end

