-- ==== Sys2Proof/Machine/Dispatch.lean ====
section
/-!
DEFINITION. The dispatch by opcode (40_engine_fsm.md R82, R84): one arm per instruction.
-/

namespace Sys2Proof.Machine

def exec (i : Instr) (s : State) : Host.Outcome State Fault Refusal :=
  match i with
  | .sqrt address => Sys2Proof.Machine.execSqrt address s
  | .writeMem offset => Sys2Proof.Machine.execWriteMem offset s
  | .loadConst k => Sys2Proof.Machine.execLoadConst k s
  | .readMem offset => Sys2Proof.Machine.execReadMem offset s

end Sys2Proof.Machine
end

