-- ==== Sys2Proof/Machine/Step.lean ====
section
/-!
DEFINITION. The engine's one step (40_engine_fsm.md R82, R87) and the placing of an instruction where the step
fetches it.
-/

namespace Sys2Proof.Machine

/-- `Step(S)` (R82): in `RUNNING`, decode at `pc`, then execute the instruction or halt cleanly; in `HALTED` there is
no step and the state stays as it is (R87). -/
def step (s : State) : Host.Outcome State Fault Refusal :=
  match s.runState with
  | .halted => stepHalted s
  | .running =>
    match decode s.prog s.pc with
    | .instr i _ => exec i s
    | .endOfProgram => cleanHalt .endOfProgram s
    | .truncated => cleanHalt .truncated s
    | .unknownOpcode => cleanHalt .unknownOpcode s

/-- `s` with the instruction whose table bits are `w` stored at `pc`, in an engine that runs: the very next step
decodes and executes it (notes/assumptions/2.md, notes/assumptions/15.md). -/
def State.withFetchWord (s : State) (nbits w : Nat) : State := armFetch (tableBytes nbits w) s

end Sys2Proof.Machine
end

