-- ==== Sys2Proof/Machine/Assembler.lean ====
section
/-!
DEFINITION. The assembler, the source's Encoder (30_encoding.md R65 to R72): a toolchain whose output is the
decoder's input contract, not part of the hardware (00_scope.md R3). No step of the machine uses it.
-/

namespace Sys2Proof

/-- One instruction request: a mnemonic and an integer operand, as the external loader supplies them (R70). -/
structure Request where
  mnemonic : String
  operand : Int
deriving DecidableEq, Repr

/-- The assembly-time errors (R67, R68). They are not hardware events and have no halt reason (R143). -/
inductive AssemblyError where
  /-- `EncodingRangeError`: the sequence index (from 0, D18), the mnemonic and the offending value (R67). -/
  | encodingRangeError (index : Nat) (mnemonic : String) (value : Int)
  /-- `UnknownMnemonicError` (R68). That it carries the index and the mnemonic is notes/assumptions/13.md, DESIGN CHOICE. -/
  | unknownMnemonicError (index : Nat) (mnemonic : String)
deriving DecidableEq, Repr

/-- A diagnostic record (R69). -/
structure Diagnostic where
  index : Nat
  opcodeId : Nat
  operand : Nat
  hexBytes : String
deriving DecidableEq, Repr

/-- What a successful assembly gives: the byte buffer, and the diagnostics beside it (R65, R69). -/
structure Assembly where
  buffer : List Byte
  diagnostics : List Diagnostic
deriving DecidableEq, Repr

/-- The four recognised mnemonics, letter for letter (R70). -/
def lookupMnemonic (name : String) : Option Opcode :=
  if name = "LoadConst" then some .loadConst
  else if name = "ReadMem" then some .readMem
  else if name = "WriteMem" then some .writeMem
  else if name = "Sqrt" then some .sqrt
  else none

/-- The largest operand the assembler accepts for an operation (R66). For `Sqrt` it exceeds the wire field by one
bit (R72; 90_conflicts.md C1). -/
def Opcode.assemblerMax : Opcode → Nat
  | .loadConst => 8191
  | .readMem => 2047
  | .writeMem => 2047
  | .sqrt => 1073741823

/-- The assembler's range check; a negative operand is outside every range (R66). -/
def assemblerAccepts (op : Opcode) (operand : Int) : Bool := 0 ≤ operand && operand ≤ op.assemblerMax

/-- One upper-case hexadecimal digit (R69, D18). -/
def hexDigit (n : Nat) : String := ("0123456789ABCDEF".toList.getD (n % 16) '0').toString

/-- A byte as two upper-case hexadecimal digits (R69, D18). -/
def hexByte (b : Byte) : String := hexDigit (b.toNat / 16) ++ hexDigit b.toNat

/-- Bytes as hexadecimal pairs separated by single spaces (R69, D18). -/
def hexBytes : List Byte → String
  | [] => ""
  | [b] => hexByte b
  | b :: rest => hexByte b ++ " " ++ hexBytes rest

/-- The assembly of one accepted request put in front of the assembly of those after it (R65, R69). -/
def prependInstr (index : Nat) (i : Instr) (rest : Assembly) : Assembly where
  buffer := encode i ++ rest.buffer
  diagnostics :=
    { index := index, opcodeId := i.opcode.id, operand := i.operand, hexBytes := hexBytes (encode i) }
      :: rest.diagnostics

/-- Assembly of the requests from sequence index `index` on, in order; the first request that fails is the error
reported, and no buffer exists then (R67, R68). -/
def assembleFrom (policy : Config.UnknownMnemonicPolicy) (index : Nat) :
    List Request → Except AssemblyError Assembly
  | [] => .ok { buffer := [], diagnostics := [] }
  | r :: rest =>
    match lookupMnemonic r.mnemonic with
    | none =>
      match policy with
      | .error => .error (.unknownMnemonicError index r.mnemonic)
      | .skip => assembleFrom policy (index + 1) rest
    | some op =>
      if assemblerAccepts op r.operand then
        match assembleFrom policy (index + 1) rest with
        | .error e => .error e
        | .ok a => .ok (prependInstr index (op.withOperand r.operand.toNat) a)
      else .error (.encodingRangeError index r.mnemonic r.operand)

/-- `assemble(programRequests)` (R67, R92): the whole buffer with its diagnostics, or one error and no buffer. -/
def assemble (policy : Config.UnknownMnemonicPolicy) (requests : List Request) :
    Except AssemblyError Assembly :=
  assembleFrom policy 0 requests

end Sys2Proof
end

