-- ==== Sys2Proof/Machine/HostPort.lean ====
section
/-!
DEFINITION. The host's operations on the engine (40_engine_fsm.md R92, 20_memory.md R44): a run to the halt, and the
dump port. They read state and change nothing (10_state.md R27).
-/

namespace Sys2Proof.Machine

/-- What `run` returns: the final memory and the halt report (R92). -/
structure RunReport where
  finalMemory : Memory
  haltReason : HaltReason
  haltPc : Nat
  haltAddr : Int
deriving DecidableEq, Repr

/-- The most steps a run from reset takes: `floor(PROG_LEN/2)` instructions and one halting step (R88). -/
def stepBound (prog : List Byte) : Nat := prog.length / 2 + 1

/-- `run(P)` (R92): reset with the Program, step until `HALTED`, return memory and the report. "Until `HALTED`" is
written as the bound of R88, after which the state of a halted engine stays as it is (R87; notes/assumptions/14.md,
DESIGN CHOICE, safe: no answer is given where the bound would not do). -/
def runProgram (prog : List Byte) : Option RunReport :=
  match Host.Core.run Sys2Proof.core (stepBound prog) (State.load prog) with
  | .next t =>
    if t.runState = .halted then
      some { finalMemory := t.mem, haltReason := t.haltReason, haltPc := t.haltPc, haltAddr := t.haltAddr }
    else none
  | .fault _ => none
  | .refused _ => none

/-- The first address of a clamped dump range (R44). -/
def dumpLow (start : Int) : Int := max start 0

/-- The last address of a clamped dump range (R44). -/
def dumpHigh (stop : Int) : Int := min stop ((Config.memWords : Int) - 1)

/-- `dump(mem, start, end)` (R44): one (address, value) record per address of the inclusive range clamped to
`[0, 65536)`, ascending; none when the range is empty (D17; notes/assumptions/14.md, DEDUCED, unsafe). -/
def dump (m : Memory) (start stop : Int) : List (Nat × Word) :=
  (List.range (dumpHigh stop + 1 - dumpLow start).toNat).map fun k =>
    ((dumpLow start).toNat + k, memRead m ((dumpLow start).toNat + k))

end Sys2Proof.Machine
end

