-- ==== Sys2Proof/Safety.lean ====
section
/-!
DEFINITION. What counts as a legal state, a reachable state and a safe run, in the terms the statements use.
-/

namespace Sys2Proof.Machine

/-- The states of a run: those reached by steps from the reset with a Program bound (R92, R160). -/
inductive Reachable (prog : List Byte) : State → Prop where
  | load : Reachable prog (State.load prog)
  | step {s t : State} : Reachable prog s → Machine.step s = .next t → Reachable prog t

/-- The legal states: what the spec says holds of the state at all times. -/
structure State.Legal (s : State) : Prop where
  /-- Data memory keeps its canonical form inside the 65536 words (R17; the form is the model's). -/
  memory : s.mem.wf
  /-- `0 <= pc <= PROG_LEN` (R13). -/
  pcInProgram : s.pc ≤ s.prog.length
  /-- `halt_reason = None` if and only if `run_state = RUNNING` (R20, R146). -/
  reasonIffHalted : s.haltReason = .none ↔ s.runState = .running
  /-- `halt_pc = pc` in every `HALTED` state (R20). -/
  haltPcIsPc : s.runState = .halted → s.haltPc = s.pc
  /-- `halt_addr` is an address outside data memory for a `MemoryRangeError`, and 0 for every other cause (R20, R132). -/
  haltAddrOutOfRange :
    if s.haltReason = .memoryRangeError then s.haltAddr < 0 ∨ 65536 ≤ s.haltAddr else s.haltAddr = 0

/-- A word in the range every reachable word lies in: `0 <= w <= 8191` (R25). -/
def wordInValueRange (w : Word) : Prop := 0 ≤ w.toInt ∧ w.toInt ≤ 8191

/-- The derived invariant on values: every stack element and every memory word lies in `[0, 8191]` (R25). -/
structure State.ValuesBounded (s : State) : Prop where
  stack : ∀ w ∈ s.stack, wordInValueRange w
  memory : ∀ a, wordInValueRange (memRead s.mem a)

/-- The depth bound an implementation's stack must provide for (R16): each instruction that pushes moves `pc` by at
least two bytes. -/
def State.DepthBounded (s : State) : Prop := 2 * s.stack.length ≤ s.pc

/-- The errors a run from reset can report (R166): no `NegativeRadicandError`, and a `MemoryRangeError` only for the
operand of the `Sqrt` at `halt_pc`, 65536 or more. -/
structure State.ErrorsOnlyFromFarSqrt (s : State) : Prop where
  noNegativeRadicand : s.haltReason ≠ .negativeRadicandError
  rangeErrorAtSqrt : s.haltReason = .memoryRangeError →
    ∃ address, decode s.prog s.haltPc = .instr (.sqrt address) 5 ∧ 65536 ≤ address ∧ s.haltAddr = address

/-- A safe run of a Program: every halt it can reach is a clean one (R134). -/
def RunsCleanly (prog : List Byte) : Prop :=
  ∀ s, Reachable prog s → s.runState = .halted → s.haltReason.isClean = true

/-- A Program the assembler can emit, under the default policy (R67, R68; 93_implementation_defined.md U5, U6). -/
def AssemblerProduced (prog : List Byte) : Prop :=
  ∃ requests a, assemble Config.unknownMnemonicPolicy requests = .ok a ∧ a.buffer = prog

/-- The instructions that accepted requests stand for, in order; an unknown mnemonic stands for none (R65, R68). -/
def requestedInstrs (requests : List Request) : List Instr :=
  requests.filterMap fun r => (lookupMnemonic r.mnemonic).map fun op => op.withOperand r.operand.toNat

/-- The engine runs the encoding of `instrs` from instruction boundary to instruction boundary, and ends cleanly only
at its end (R59, R67, R86). -/
structure State.OnEncodingOf (instrs : List Instr) (s : State) : Prop where
  program : s.prog = instrs.flatMap encode
  boundary : ∃ done rest, instrs = done ++ rest ∧ s.pc = (done.flatMap encode).length
  notTruncated : s.haltReason ≠ .truncated
  notUnknownOpcode : s.haltReason ≠ .unknownOpcode
  endAtTheEnd : s.haltReason = .endOfProgram → s.haltPc = s.prog.length

end Sys2Proof.Machine
end

