-- ==== Sys2Proof/Certificates/Slice0/Obligations.lean ====
section
/-!
DEFINITION. The statements for the provers. Each docstring names the rule of spec/ it formalises and, where a clause
rests on a decision the spec marks as its own or on a choice of the model, says so and names the log entry.
-/

open Sys2Proof Sys2Proof.Machine

/-! ## Reset -/

/-- 40_engine_fsm.md section 1 (R81): the initial state is `RUNNING`, pc = 0, stack empty, memory all zero. That the
Program is held in State, and that `State.reset` binds the empty one, is the model's choice (log entry 1). -/
def Obligations.ResetStartsRunningAtZeroWithEmptyStackAndZeroMemory : Prop :=
  State.reset = State.load [] ∧
  ∀ prog : List Byte,
    (State.load prog).prog = prog ∧ (State.load prog).runState = .running ∧ (State.load prog).pc = 0 ∧
      (State.load prog).stack = [] ∧ ∀ a : Nat, memRead (State.load prog).mem a = 0

/-- 10_state.md section 9: the halt report after reset. The report registers are the spec's decision D9 (log entry 10). -/
def Obligations.ResetClearsTheHaltReport : Prop :=
  ∀ prog : List Byte,
    (State.load prog).haltReason = .none ∧ (State.load prog).haltPc = 0 ∧ (State.load prog).haltAddr = 0

/-! ## Stack and data memory -/

/-- R15: push appends, a pop takes the last element, a pop of the empty stack raises `StackUnderflow` and leaves the
stack empty; per instruction one push, one pop and one push, two pops, one pop. -/
def Obligations.PushAppendsAndPopTakesTheTop : Prop :=
  (∀ (s : State) (v : Word), push v s = { s with stack := s.stack ++ [v] } ∧ pop (push v s) = some (v, s)) ∧
  (∀ (s : State) (xs : List Word) (v : Word), s.stack = xs ++ [v] → pop s = some (v, { s with stack := xs })) ∧
  (∀ (s : State) (rest : Word → State → Result), s.stack = [] →
    ∃ t, withPop s rest = .next t ∧ t.runState = .halted ∧ t.haltReason = .stackUnderflow ∧ t.stack = []) ∧
  ∀ (i : Instr) (s t : State), s.runState = .running → exec i s = .next t → t.runState = .running →
    match i with
    | .loadConst _ => ∃ v, t.stack = s.stack ++ [v]
    | .readMem _ => ∃ xs b v, s.stack = xs ++ [b] ∧ t.stack = xs ++ [v]
    | .writeMem _ => ∃ b v, s.stack = t.stack ++ [b, v]
    | .sqrt _ => ∃ v, s.stack = t.stack ++ [v]

/-- 20_memory.md section 2 (R32): a read returns the latest write of that word, or 0 if it was not written since reset;
a write changes exactly one word. The canonical form of a memory, which a write keeps and reset has, is the model's
choice (log entry 4). -/
def Obligations.DataMemoryReadsBackTheLatestWrite : Prop :=
  (∀ (m : Memory) (a : Nat) (v : Word), m.wf → a < 65536 →
    (memWrite m a v).wf ∧ memRead (memWrite m a v) a = v ∧
      ∀ b : Nat, b ≠ a → memRead (memWrite m a v) b = memRead m b) ∧
  ∀ (prog : List Byte) (a : Nat), (State.load prog).mem.wf ∧ memRead (State.load prog).mem a = 0

/-- The representation of data memory (log entry 4, DESIGN CHOICE) is canonical: memories that hold the same 65536
words are the same list. -/
def Obligations.MemoriesWithTheSameWordsAreEqual : Prop :=
  ∀ m n : Memory, m.wf → n.wf → (∀ a : Nat, a < 65536 → memRead m a = memRead n a) → m = n

/-! ## Decoding -/

/-- R53: what each range of byte 1 selects, when bytes enough for the longest instruction are present. -/
def Obligations.FirstByteSelectsTheInstruction : Prop :=
  ∀ (prog : List Byte) (off : Nat), off + 5 ≤ prog.length →
    let b := (prog.getD off 0).toNat
    (b ≤ 0x1F → decode prog off = .unknownOpcode) ∧
    (0x20 ≤ b ∧ b ≤ 0x3F → ∃ k, decode prog off = .instr (.sqrt k) 5) ∧
    (0x40 ≤ b ∧ b ≤ 0x5F → ∃ k, decode prog off = .instr (.writeMem k) 2) ∧
    (0x60 ≤ b ∧ b ≤ 0x7F → decode prog off = .unknownOpcode) ∧
    (0x80 ≤ b ∧ b ≤ 0x9F → ∃ k, decode prog off = .instr (.loadConst k) 2) ∧
    (0xA0 ≤ b ∧ b ≤ 0xBF → decode prog off = .unknownOpcode) ∧
    (0xC0 ≤ b ∧ b ≤ 0xDF → decode prog off = .unknownOpcode) ∧
    (0xE0 ≤ b → ∃ k, decode prog off = .instr (.readMem k) 2)

/-- R59: `EndOfProgram` exactly when the offset equals the buffer length; the empty Program gives it at offset 0. -/
def Obligations.EndOfProgramExactlyAtTheBufferLength : Prop :=
  (∀ (prog : List Byte) (off : Nat), off ≤ prog.length →
    (decode prog off = .endOfProgram ↔ off = prog.length)) ∧
  decode [] 0 = .endOfProgram

/-- 30_encoding.md section 4: `UnknownOpcode` exactly on the opcode IDs 0, 3, 5 and 6, however few bytes remain, and
`EndOfProgram` past the end. The order of the checks is decision D5, the result past the end D6, the name D9
(log entries 8 and 10). -/
def Obligations.UnknownOpcodeBeforeTruncationAndEndPastTheEnd : Prop :=
  (∀ (prog : List Byte) (off : Nat), off < prog.length →
    let id := (prog.getD off 0).toNat / 32
    (decode prog off = .unknownOpcode ↔ id = 0 ∨ id = 3 ∨ id = 5 ∨ id = 6)) ∧
  ∀ (prog : List Byte) (off : Nat), prog.length < off → decode prog off = .endOfProgram

/-- 30_encoding.md section 4 (R61): `Truncated` exactly when fewer bytes remain than the declared width: 1 of 2 for the
opcode IDs 2, 4 and 7, 1 to 4 of 5 for the opcode ID 1. It is treated as a clean halt, not an error. That a lone byte
with any other opcode ID is not `Truncated` is the order of the checks, decision D5 (log entry 8). -/
def Obligations.TruncatedExactlyWhenBytesAreMissing : Prop :=
  (∀ (prog : List Byte) (off : Nat), off < prog.length →
    let id := (prog.getD off 0).toNat / 32
    let remaining := prog.length - off
    (decode prog off = .truncated ↔
      ((id = 2 ∨ id = 4 ∨ id = 7) ∧ remaining = 1) ∨ (id = 1 ∧ remaining ≤ 4))) ∧
  ∀ s : State, s.runState = .running → decode s.prog s.pc = .truncated →
    ∃ t, step s = .next t ∧ t.runState = .halted ∧ t.haltReason.isClean = true ∧ t.haltReason.isError = false

/-- R54: the length is a function of the opcode ID in byte 1 alone: 5 for the ID 1, 2 for the IDs 2, 4 and 7. -/
def Obligations.LengthIsAFunctionOfTheOpcodeId : Prop :=
  ∀ (prog : List Byte) (off : Nat) (i : Instr) (w : Nat), decode prog off = .instr i w →
    let id := (prog.getD off 0).toNat / 32
    (id = 1 ∧ w = 5) ∨ ((id = 2 ∨ id = 4 ∨ id = 7) ∧ w = 2)

/-- 30_encoding.md section 3: the short-format operand is `(byte1 & 0x1F) << 8 | byte2`, unsigned, for all three
opcodes and for every value of the field (R55 is marked derived; the whole field for `ReadMem` and `WriteMem` is D8,
log entry 9). -/
def Obligations.ShortOperandIsTheThirteenBitField : Prop :=
  ∀ (prog : List Byte) (off : Nat), off + 2 ≤ prog.length →
    let b1 := (prog.getD off 0).toNat
    let b2 := (prog.getD (off + 1) 0).toNat
    let k := b1 % 32 * 256 + b2
    k ≤ 8191 ∧
    (b1 / 32 = 2 → decode prog off = .instr (.writeMem k) 2) ∧
    (b1 / 32 = 4 → decode prog off = .instr (.loadConst k) 2) ∧
    (b1 / 32 = 7 → decode prog off = .instr (.readMem k) 2)

/-- 30_encoding.md section 3: the long-format operand is bytes 1 to 4 without the opcode ID, big-endian, unsigned;
the value of byte 5 does not matter (R56 is marked derived; the ignored pad is D7, log entry 9). -/
def Obligations.LongOperandIsTheTwentyNineBitField : Prop :=
  ∀ (prog : List Byte) (off : Nat), off + 5 ≤ prog.length →
    let b1 := (prog.getD off 0).toNat
    let b2 := (prog.getD (off + 1) 0).toNat
    let b3 := (prog.getD (off + 2) 0).toNat
    let b4 := (prog.getD (off + 3) 0).toNat
    let k := b1 % 32 * 16777216 + b2 * 65536 + b3 * 256 + b4
    k ≤ 536870911 ∧ (b1 / 32 = 1 → decode prog off = .instr (.sqrt k) 5)

/-- R51: the two bytes of a short-format instruction, for each of its three opcode IDs and any operand. -/
def Obligations.ShortEncodingPlacesTheFields : Prop :=
  ∀ k : Nat,
    (encode (.writeMem k)).map BitVec.toNat = [2 * 32 + k / 256 % 32, k % 256] ∧
    (encode (.loadConst k)).map BitVec.toNat = [4 * 32 + k / 256 % 32, k % 256] ∧
    (encode (.readMem k)).map BitVec.toNat = [7 * 32 + k / 256 % 32, k % 256]

/-- 30_encoding.md section 1: the five bytes of the long-format instruction, for any operand, and the decoder's
answer on them whatever the pad byte (the ignored pad is D7, log entry 9; the dropped high bits are D12, entry 13). -/
def Obligations.LongEncodingPlacesTheFields : Prop :=
  ∀ k : Nat, ∃ b1 b2 b3 b4 : Byte,
    encode (.sqrt k) = [b1, b2, b3, b4, 0] ∧
    b1.toNat = 1 * 32 + k / 16777216 % 32 ∧ b2.toNat = k / 65536 % 256 ∧ b3.toNat = k / 256 % 256 ∧
    b4.toNat = k % 256 ∧
    ∀ pad : Byte, decode [b1, b2, b3, b4, pad] 0 = .instr (.sqrt (k % 536870912)) 5

/-- The round trip of R71 (marked derived): decoding an encoded well-formed instruction, at any offset and whatever
stands before and after it, gives that instruction and its width. -/
def Obligations.DecodeOfEncodeIsTheInstruction : Prop :=
  ∀ i : Instr, i.wellFormed = true → ∀ before after : List Byte,
    decode (before ++ encode i ++ after) before.length = .instr i i.width

/-- The other direction of R71 (marked derived): whatever decodes is well-formed, has the width of its opcode, lies
whole inside the Program, and re-encodes to its own bytes, with `0x00` for byte 5. -/
def Obligations.EncodeOfDecodeIsTheBytes : Prop :=
  ∀ (prog : List Byte) (off : Nat) (i : Instr) (w : Nat), decode prog off = .instr i w →
    i.wellFormed = true ∧ w = i.width ∧ off + w ≤ prog.length ∧
    (∀ k, k < w → k ≠ 4 → (encode i).getD k 0 = prog.getD (off + k) 0) ∧
    (w = 5 → (encode i).getD 4 0 = 0)

/-- An instruction may start at any byte offset (20_memory.md section 4): what decodes depends on the bytes from the
offset on, not on where they stand. -/
def Obligations.DecodingDoesNotDependOnAlignment : Prop :=
  ∀ (before rest : List Byte) (off : Nat), decode (before ++ rest) (before.length + off) = decode rest off

/-- Words of 95_test_vectors.md sections 2.2 and 2.3, one and more of each operation, decode to what they stand for.
The lone byte `1F` as `UnknownOpcode` rests on decision D5 (log entry 8), the bytes `FF FF` as `ReadMem` with the whole
field on D8 (log entry 9), the names of the two halt signals apart on D9 (log entry 10). -/
def Obligations.SpecVectorsDecode : Prop :=
  decode [0x80, 0x64] 0 = .instr (.loadConst 100) 2 ∧
  decode [0x9F, 0xFF] 0 = .instr (.loadConst 8191) 2 ∧
  decode [0xFF, 0xFF] 0 = .instr (.readMem 8191) 2 ∧
  decode [0x47, 0xFF] 0 = .instr (.writeMem 2047) 2 ∧
  decode [0x21, 0x23, 0x45, 0x67, 0x00] 0 = .instr (.sqrt 19088743) 5 ∧
  decode [0x20, 0x00, 0x00, 0x32] 0 = .truncated ∧
  decode [0x1F] 0 = .unknownOpcode

/-! ## The step -/

/-- R82: in `RUNNING` a step decodes at `pc` and either executes exactly the decoded instruction or transitions to
`HALTED` with no error. -/
def Obligations.StepRunsTheDecodedInstructionOrHaltsCleanly : Prop :=
  ∀ s : State, s.runState = .running →
    (∀ i w, decode s.prog s.pc = .instr i w → step s = exec i s) ∧
    (decode s.prog s.pc = .endOfProgram ∨ decode s.prog s.pc = .truncated ∨
        decode s.prog s.pc = .unknownOpcode →
      ∃ t, step s = .next t ∧ t.runState = .halted ∧ t.haltReason.isError = false)

/-- 40_engine_fsm.md section 2: a clean halt sets `run_state` and the report and changes nothing else. The report
registers and the three distinct causes are decision D9 (log entry 10). -/
def Obligations.CleanHaltWritesTheReportAndNothingElse : Prop :=
  ∀ s : State, s.runState = .running →
    (decode s.prog s.pc = .endOfProgram →
      step s = .next { s with runState := .halted, haltReason := .endOfProgram, haltPc := s.pc, haltAddr := 0 }) ∧
    (decode s.prog s.pc = .truncated →
      step s = .next { s with runState := .halted, haltReason := .truncated, haltPc := s.pc, haltAddr := 0 }) ∧
    (decode s.prog s.pc = .unknownOpcode →
      step s = .next { s with runState := .halted, haltReason := .unknownOpcode, haltPc := s.pc, haltAddr := 0 })

/-- 40_engine_fsm.md section 2: `HALTED` is terminal, nothing changes there. That the model's step answers the same
state, where the rule says the engine has no step, is the model's choice (log entry 3). -/
def Obligations.HaltedEngineStaysAsItIs : Prop :=
  ∀ s : State, s.runState = .halted → ∀ n : Nat, Host.Core.run Sys2Proof.core n s = .next s

/-- R146: every transition to `HALTED` writes a cause other than `None`, so `HALTED` with `None` is not reachable. -/
def Obligations.EveryHaltIsReported : Prop :=
  (∀ s t : State, s.runState = .running → step s = .next t → t.runState = .halted → t.haltReason ≠ .none) ∧
  ∀ (prog : List Byte) (s : State), Reachable prog s → ¬ (s.runState = .halted ∧ s.haltReason = .none)

/-- 40_engine_fsm.md section 5 ("A run never fails to return"): a step always answers a next state, never a fault or
a refusal. Three parts are the model's choices: that a halt is a next state and no arm faults or refuses (log entry
12), that a `HALTED` state answers a next state where R87 gives it no step (log entry 3), and that `exec` answers
outside `RUNNING` and for operands no field holds (log entries 3 and 16). -/
def Obligations.EveryStepAnswersANextState : Prop :=
  (∀ (i : Instr) (s : State), ∃ t, exec i s = .next t) ∧ ∀ s : State, ∃ t, step s = .next t

/-! ## The instructions: results -/

/-- R100: `LoadConst(k)` always succeeds, on every stack: its bytes, the constant pushed as a non-negative word,
`pc + 2`, and nothing else changed. -/
def Obligations.LoadConstPushesTheConstant : Prop :=
  ∀ (k : Nat) (s : State), k ≤ 8191 → s.runState = .running →
    (encode (.loadConst k)).map BitVec.toNat = [0x80 + k / 256, k % 256] ∧
    assemblerAccepts .loadConst k = true ∧
    ∃ w : Word, w.toInt = k ∧
      exec (.loadConst k) s = .next { s with stack := s.stack ++ [w], pc := s.pc + 2 }

/-- 42_readmem_writemem.md section 2: `ReadMem(offset)` with a base on the stack and base plus offset, a sum of
integers, inside data memory: the base is replaced by the word read, `pc + 2`, and nothing else changed. For any
offset, above 2047 too (D8; the unwrapped sum is D2; log entries 9 and 6). -/
def Obligations.ReadMemReplacesTheBaseByTheWordRead : Prop :=
  ∀ (offset : Nat) (s : State) (xs : List Word) (b : Word), s.runState = .running → s.stack = xs ++ [b] →
    0 ≤ b.toInt + offset → b.toInt + offset < 65536 →
    exec (.readMem offset) s =
      .next { s with stack := xs ++ [memRead s.mem (b.toInt + offset).toNat], pc := s.pc + 2 }

/-- 42_readmem_writemem.md sections 1 and 3 (R111, R113): `WriteMem(offset)` takes the value from the top and the base
from below it, and, base plus offset, a sum of integers, inside data memory, stores the value whole there; `pc + 2` and
nothing else changed. For any offset: the whole field, above 2047 too, is D8 (log entry 9), an offset above 8191 is
log entry 16; the unwrapped sum is D2 (log entry 6). -/
def Obligations.WriteMemStoresTheTopAtTheBaseBelowIt : Prop :=
  ∀ (offset : Nat) (s : State) (xs : List Word) (b v : Word), s.runState = .running → s.stack = xs ++ [b, v] →
    0 ≤ b.toInt + offset → b.toInt + offset < 65536 →
    exec (.writeMem offset) s =
      .next { s with stack := xs, mem := memWrite s.mem (b.toInt + offset).toNat v, pc := s.pc + 2 }

/-- 43_sqrt.md sections 1 and 2 (R120, R121, R123): `Sqrt(address)` pops exactly one value and uses its operand as the
literal address: the floor of the square root of a non-negative radicand is stored there, `pc + 5`, and nothing else
changed. The characterisation `r*r <= v < (r+1)*(r+1)` is general knowledge by R121's own mark and its exactness D20
(log entry 5). -/
def Obligations.SqrtStoresTheFloorRootAtTheLiteralAddress : Prop :=
  ∀ (address : Nat) (s : State) (xs : List Word) (v : Word), s.runState = .running → s.stack = xs ++ [v] →
    0 ≤ v.toInt → address < 65536 →
    ∃ r : Nat, r * r ≤ v.toInt.toNat ∧ v.toInt.toNat < (r + 1) * (r + 1) ∧
      (BitVec.ofNat 32 r).toInt = r ∧
      exec (.sqrt address) s =
        .next { s with stack := xs, mem := memWrite s.mem address (BitVec.ofNat 32 r), pc := s.pc + 5 }

/-- 43_sqrt.md section 1: `isqrt` is the integer floor of the square root for every `v`, with the laws listed there
(exactness is D20, the characterisation general knowledge; log entry 5). -/
def Obligations.IsqrtIsTheFloorOfTheSquareRoot : Prop :=
  (∀ v : Nat, isqrt v * isqrt v ≤ v ∧ v < (isqrt v + 1) * (isqrt v + 1) ∧ isqrt v ≤ v) ∧
  (∀ v w : Nat, v ≤ w → isqrt v ≤ isqrt w) ∧
  (∀ n : Nat, isqrt (n * n) = n) ∧ (∀ n : Nat, 1 ≤ n → isqrt (n * n - 1) = n - 1)

/-! ## The instructions: halts -/

/-- 42_readmem_writemem.md section 2, 60_exceptions.md section 3: where `ReadMem` halts, with the whole halt entry.
The report is D9, the popped base D11 (log entries 10 and 11); the address as the true, unwrapped sum is D2 and D21
(log entry 6). -/
def Obligations.ReadMemHaltsOnUnderflowAndRange : Prop :=
  ∀ (offset : Nat) (s : State), s.runState = .running →
    (s.stack = [] →
      exec (.readMem offset) s =
        .next { s with runState := .halted, haltReason := .stackUnderflow, haltPc := s.pc, haltAddr := 0 }) ∧
    ∀ (xs : List Word) (b : Word), s.stack = xs ++ [b] →
      (b.toInt + offset < 0 ∨ 65536 ≤ b.toInt + offset) →
      exec (.readMem offset) s =
        .next { s with stack := xs, runState := .halted, haltReason := .memoryRangeError, haltPc := s.pc,
                       haltAddr := b.toInt + offset }

/-- 42_readmem_writemem.md section 3, 60_exceptions.md section 3: where `WriteMem` halts, with the whole halt entry.
The report is D9, the popped operands D11 (log entries 10 and 11); the address as the true, unwrapped sum is D2 and D21
(log entry 6). -/
def Obligations.WriteMemHaltsOnUnderflowAndRange : Prop :=
  ∀ (offset : Nat) (s : State), s.runState = .running →
    (s.stack.length ≤ 1 →
      exec (.writeMem offset) s =
        .next { s with stack := [], runState := .halted, haltReason := .stackUnderflow, haltPc := s.pc,
                       haltAddr := 0 }) ∧
    ∀ (xs : List Word) (b v : Word), s.stack = xs ++ [b, v] →
      (b.toInt + offset < 0 ∨ 65536 ≤ b.toInt + offset) →
      exec (.writeMem offset) s =
        .next { s with stack := xs, runState := .halted, haltReason := .memoryRangeError, haltPc := s.pc,
                       haltAddr := b.toInt + offset }

/-- 43_sqrt.md section 2, 60_exceptions.md section 3: where `Sqrt` halts, with the whole halt entry. The report is D9,
the popped radicand D11 (log entries 10 and 11). -/
def Obligations.SqrtHaltsOnUnderflowSignAndRange : Prop :=
  ∀ (address : Nat) (s : State), s.runState = .running →
    (s.stack = [] →
      exec (.sqrt address) s =
        .next { s with runState := .halted, haltReason := .stackUnderflow, haltPc := s.pc, haltAddr := 0 }) ∧
    ∀ (xs : List Word) (v : Word), s.stack = xs ++ [v] →
      (v.toInt < 0 →
        exec (.sqrt address) s =
          .next { s with stack := xs, runState := .halted, haltReason := .negativeRadicandError,
                         haltPc := s.pc, haltAddr := 0 }) ∧
      (0 ≤ v.toInt → 65536 ≤ address →
        exec (.sqrt address) s =
          .next { s with stack := xs, runState := .halted, haltReason := .memoryRangeError, haltPc := s.pc,
                         haltAddr := address })

/-- 60_exceptions.md section 1 (R131): `StackUnderflow` exactly when an instruction pops more than the stack holds:
`ReadMem` and `Sqrt` on 0 elements, `WriteMem` on 0 or 1, `LoadConst` never; it carries no value, and the halt is at the
instruction's pc with memory as it was. The report registers, and that no value reads as `halt_addr = 0`, are D9
(log entry 10). -/
def Obligations.StackUnderflowExactlyWhenOperandsAreMissing : Prop :=
  ∀ (i : Instr) (s : State), s.runState = .running → s.haltReason = .none →
    let needed := match i with
      | .loadConst _ => 0
      | .readMem _ => 1
      | .writeMem _ => 2
      | .sqrt _ => 1
    ∃ t, exec i s = .next t ∧
      (t.haltReason = .stackUnderflow ↔ s.stack.length < needed) ∧
      (t.haltReason = .stackUnderflow →
        t.runState = .halted ∧ t.haltAddr = 0 ∧ t.haltPc = s.pc ∧ t.pc = s.pc ∧ t.mem = s.mem)

/-- 20_memory.md section 2 (R33): the range check of `ReadMem`, `WriteMem` and `Sqrt` is a comparison of mathematical
integers: an address below 0 or from 65536 on fails with `MemoryRangeError` of that address, and no other address does.
That base plus offset is checked and reported as the true, unwrapped sum is D2 and D21 (log entry 6); the report
register is D9 (log entry 10). -/
def Obligations.RangeErrorExactlyOutsideDataMemory : Prop :=
  ∀ (s : State) (k : Nat) (xs : List Word) (b v : Word), s.runState = .running → s.haltReason = .none →
    (s.stack = xs ++ [b] → ∃ t, exec (.readMem k) s = .next t ∧
      (t.haltReason = .memoryRangeError ↔ b.toInt + k < 0 ∨ 65536 ≤ b.toInt + k) ∧
      (t.haltReason = .memoryRangeError → t.haltAddr = b.toInt + k)) ∧
    (s.stack = xs ++ [b, v] → ∃ t, exec (.writeMem k) s = .next t ∧
      (t.haltReason = .memoryRangeError ↔ b.toInt + k < 0 ∨ 65536 ≤ b.toInt + k) ∧
      (t.haltReason = .memoryRangeError → t.haltAddr = b.toInt + k)) ∧
    (s.stack = xs ++ [v] → 0 ≤ v.toInt → ∃ t, exec (.sqrt k) s = .next t ∧
      (t.haltReason = .memoryRangeError ↔ 65536 ≤ k) ∧
      (t.haltReason = .memoryRangeError → t.haltAddr = k))

/-- 60_exceptions.md section 1: `NegativeRadicandError` exactly from a `Sqrt` of a negative word, carrying no value;
zero is not negative and stores 0. -/
def Obligations.NegativeRadicandErrorExactlyFromSqrtOfANegative : Prop :=
  (∀ (i : Instr) (s : State), s.runState = .running → s.haltReason = .none → ∃ t, exec i s = .next t ∧
    (t.haltReason = .negativeRadicandError ↔
      ∃ address xs v, i = .sqrt address ∧ s.stack = xs ++ [v] ∧ v.toInt < 0) ∧
    (t.haltReason = .negativeRadicandError → t.haltAddr = 0)) ∧
  ∀ (address : Nat) (s : State) (xs : List Word), s.runState = .running → s.stack = xs ++ [0] →
    address < 65536 →
    exec (.sqrt address) s = .next { s with stack := xs, mem := memWrite s.mem address 0, pc := s.pc + 5 }

/-- R122: the order of `Sqrt`'s checks: underflow, then the sign of the radicand, then the address range, then the
write. -/
def Obligations.SqrtChecksUnderflowThenSignThenAddress : Prop :=
  ∀ (address : Nat) (s : State), s.runState = .running → s.haltReason = .none →
    ∃ t, exec (.sqrt address) s = .next t ∧
      (s.stack = [] → t.haltReason = .stackUnderflow ∧ t.mem = s.mem) ∧
      ∀ (xs : List Word) (v : Word), s.stack = xs ++ [v] →
        (v.toInt < 0 → t.haltReason = .negativeRadicandError ∧ t.mem = s.mem) ∧
        (0 ≤ v.toInt → 65536 ≤ address → t.haltReason = .memoryRangeError ∧ t.mem = s.mem) ∧
        (0 ≤ v.toInt → address < 65536 →
          t.haltReason = .none ∧ t.mem = memWrite s.mem address (rootWord v))

/-- R85: an execution failure transitions to `HALTED`, reports the failing pc and the error kind, and preserves
memory as of the last successful instruction; `pc` and the Program stay as well. -/
def Obligations.FailedInstructionPreservesMemoryAndPc : Prop :=
  ∀ (i : Instr) (s t : State), s.runState = .running → exec i s = .next t → t.runState = .halted →
    t.haltReason.isError = true ∧ t.haltPc = s.pc ∧ t.mem = s.mem ∧ t.pc = s.pc ∧ t.prog = s.prog

/-! ## Program counter and frames -/

/-- R86: `pc` advances only on success and only by the width, 2 or 5; a halting step, clean or not, leaves it. -/
def Obligations.PcAdvancesOnlyOnSuccessByTheWidth : Prop :=
  ∀ s t : State, s.runState = .running → step s = .next t →
    (t.runState = .running →
      ∃ i w, decode s.prog s.pc = .instr i w ∧ exec i s = .next t ∧
        match i with
        | .loadConst _ => t.pc = s.pc + 2
        | .readMem _ => t.pc = s.pc + 2
        | .writeMem _ => t.pc = s.pc + 2
        | .sqrt _ => t.pc = s.pc + 5) ∧
    (t.runState = .halted → t.pc = s.pc)

/-- Frame of the forms that store nothing, `LoadConst` and `ReadMem` (41_loadconst.md, 42_readmem_writemem.md
section 2): every word of memory and the Program stay, the stack below the operand stays, and on success the run
state and the halt report stay. -/
def Obligations.LoadConstAndReadMemFrame : Prop :=
  (∀ (k : Nat) (s t : State), exec (.loadConst k) s = .next t →
    (∀ a : Nat, memRead t.mem a = memRead s.mem a) ∧ t.prog = s.prog ∧ (∃ v, t.stack = s.stack ++ [v]) ∧
      t.runState = s.runState ∧ t.haltReason = s.haltReason ∧ t.haltPc = s.haltPc ∧ t.haltAddr = s.haltAddr) ∧
  ∀ (offset : Nat) (s t : State), s.runState = .running → exec (.readMem offset) s = .next t →
    (∀ a : Nat, memRead t.mem a = memRead s.mem a) ∧ t.prog = s.prog ∧
    (t.runState = .running →
      t.stack.dropLast = s.stack.dropLast ∧ t.haltReason = s.haltReason ∧ t.haltPc = s.haltPc ∧
        t.haltAddr = s.haltAddr)

/-- Frame of the forms that store, `WriteMem` and `Sqrt` (42_readmem_writemem.md section 3, 43_sqrt.md section 2): of
memory at most the word at the address the meaning computes changes, the Program and the stack below the operands
stay, and on success the run state and the halt report stay. That the operands are gone from the stack after a range
or radicand error too is R144 on decision D11 (log entry 11). Missing operands: the statements of where each halts. -/
def Obligations.WriteMemAndSqrtFrame : Prop :=
  (∀ (offset : Nat) (s t : State) (xs : List Word) (b v : Word), s.runState = .running →
    s.stack = xs ++ [b, v] → exec (.writeMem offset) s = .next t →
    (∀ a : Int, baseOffsetAddress b offset = a →
      ∀ c : Nat, (c : Int) ≠ a → memRead t.mem c = memRead s.mem c) ∧
    t.prog = s.prog ∧ t.stack = xs ∧
    (t.runState = .running →
      t.haltReason = s.haltReason ∧ t.haltPc = s.haltPc ∧ t.haltAddr = s.haltAddr)) ∧
  ∀ (address : Nat) (s t : State) (xs : List Word) (v : Word), s.runState = .running →
    s.stack = xs ++ [v] → exec (.sqrt address) s = .next t →
    (∀ a : Int, absoluteAddress address = a →
      ∀ c : Nat, (c : Int) ≠ a → memRead t.mem c = memRead s.mem c) ∧
    t.prog = s.prog ∧ t.stack = xs ∧
    (t.runState = .running →
      t.haltReason = s.haltReason ∧ t.haltPc = s.haltPc ∧ t.haltAddr = s.haltAddr)

/-- R45: data memory is mutated only by `WriteMem` and `Sqrt`, never by a failed instruction, and read only by
`ReadMem`: any other instruction does the same to everything else, and the same write, whatever memory holds. -/
def Obligations.OnlyWriteMemAndSqrtMutateAndOnlyReadMemReads : Prop :=
  (∀ (i : Instr) (s t : State), s.runState = .running → exec i s = .next t → t.mem ≠ s.mem →
    t.runState = .running ∧ ((∃ k, i = .writeMem k) ∨ ∃ k, i = .sqrt k)) ∧
  ∀ (i : Instr) (s t : State) (m : Memory), s.runState = .running → (∀ k, i ≠ .readMem k) →
    exec i s = .next t →
    ∃ m', exec i { s with mem := m } = .next { t with mem := m' } ∧
      ((t.mem = s.mem ∧ m' = m) ∨ ∃ a v, t.mem = memWrite s.mem a v ∧ m' = memWrite m a v)

/-- R42: no step writes the Program, so what decodes at any offset is the same after every step. -/
def Obligations.NoStepWritesTheProgram : Prop :=
  ∀ s t : State, step s = .next t → t.prog = s.prog ∧ ∀ off : Nat, decode t.prog off = decode s.prog off

/-- 10_state.md section 7: the halt report is invisible to instructions (the report registers are D9, log entry 10). -/
def Obligations.HaltReportIsInvisibleToInstructions : Prop :=
  ∀ (i : Instr) (s t : State) (r : HaltReason) (p : Nat) (a : Int), s.runState = .running →
    exec i s = .next t →
    ∃ t', exec i { s with haltReason := r, haltPc := p, haltAddr := a } = .next t' ∧
      t'.prog = t.prog ∧ t'.runState = t.runState ∧ t'.pc = t.pc ∧ t'.stack = t.stack ∧ t'.mem = t.mem

/-- 10_state.md section 4: no instruction reads or writes an element below the ones it pops, nor the depth: with its
operands present it does the same above any deeper stack. -/
def Obligations.DeeperStackElementsAreUntouched : Prop :=
  ∀ (i : Instr) (s t : State) (deeper : List Word), s.runState = .running →
    (match i with
      | .loadConst _ => 0
      | .readMem _ => 1
      | .writeMem _ => 2
      | .sqrt _ => 1) ≤ s.stack.length →
    exec i s = .next t →
    exec i { s with stack := deeper ++ s.stack } = .next { t with stack := deeper ++ t.stack }

/-- 20_memory.md section 7: a `ReadMem` of a word returns the value the latest earlier `WriteMem` or `Sqrt` stored to
it, whatever bases and offsets name the word. The unwrapped sum is D2 (log entry 6), the whole offset field D8 (log
entry 9). -/
def Obligations.ReadMemReturnsTheStoredWord : Prop :=
  (∀ (s t u : State) (xs ys : List Word) (b v b' : Word) (offset offset' : Nat),
    s.runState = .running → s.mem.wf → s.stack = xs ++ [b, v] → 0 ≤ b.toInt + offset → b.toInt + offset < 65536 →
    exec (.writeMem offset) s = .next t →
    u.runState = .running → u.mem = t.mem → u.stack = ys ++ [b'] → b'.toInt + offset' = b.toInt + offset →
    exec (.readMem offset') u = .next { u with stack := ys ++ [v], pc := u.pc + 2 }) ∧
  ∀ (s t u : State) (xs ys : List Word) (v b' : Word) (address offset' : Nat),
    s.runState = .running → s.mem.wf → s.stack = xs ++ [v] → 0 ≤ v.toInt → address < 65536 →
    exec (.sqrt address) s = .next t →
    u.runState = .running → u.mem = t.mem → u.stack = ys ++ [b'] → b'.toInt + offset' = (address : Int) →
    exec (.readMem offset') u = .next { u with stack := ys ++ [rootWord v], pc := u.pc + 2 }

/-! ## Invariants and whole runs -/

/-- Every step keeps the state legal (`State.Legal`: canonical memory, `pc` inside the Program, the reason `None`
exactly while running, `halt_pc = pc` when halted, `halt_addr` an out-of-range address for a range error and 0
otherwise; 10_state.md sections 3 and 7; the report is D9, the memory form log entry 4). -/
def Obligations.StepKeepsTheStateLegal : Prop :=
  ∀ s t : State, s.Legal → step s = .next t → t.Legal

/-- Every engine just reset with a Program is in a legal state. The reset value of the report is D9 (log entry 10), the
memory form the model's choice (log entry 4). -/
def Obligations.LoadedEngineIsLegal : Prop := ∀ prog : List Byte, (State.load prog).Legal

/-- The derived invariant of R25: every step from a legal state keeps every stack element and memory word in
`[0, 8191]`. -/
def Obligations.StepKeepsValuesBounded : Prop :=
  ∀ s t : State, s.Legal → s.ValuesBounded → step s = .next t → t.ValuesBounded

/-- The invariant of R25 holds of every engine just reset with a Program. -/
def Obligations.LoadedEngineHasBoundedValues : Prop := ∀ prog : List Byte, (State.load prog).ValuesBounded

/-- 10_state.md section 4 (the derived part of R16): twice the stack's depth never exceeds `pc`, so with `pc` inside
the Program `floor(PROG_LEN/2)` entries suffice in every reachable state. -/
def Obligations.StackDepthStaysWithinHalfTheProgram : Prop :=
  (∀ s t : State, s.DepthBounded → step s = .next t → t.DepthBounded) ∧
  ∀ (prog : List Byte) (s : State), Reachable prog s → s.stack.length ≤ prog.length / 2

/-- 70_reset_and_hazards.md section 3 (derived from R25): from reset no `NegativeRadicandError` happens, and a
`MemoryRangeError` comes from a `Sqrt` whose operand is 65536 or more. The report registers are D9 (log entry 10). -/
def Obligations.ErrorsThatCannotHappenFromReset : Prop :=
  ∀ (prog : List Byte) (s : State), Reachable prog s →
    s.haltReason ≠ .negativeRadicandError ∧
    (s.haltReason = .memoryRangeError →
      ∃ address, decode prog s.haltPc = .instr (.sqrt address) 5 ∧ 65536 ≤ address ∧ s.haltAddr = address)

/-- 40_engine_fsm.md section 3 (marked derived): every run ends, after at most `floor(PROG_LEN/2)` executed
instructions and one halting step. The run of exactly `floor(PROG_LEN/2) + 1` steps goes on past an earlier halt only
because the model's step of a `HALTED` engine answers the same state (log entry 3). -/
def Obligations.EveryRunHaltsWithinTheStepBound : Prop :=
  ∀ prog : List Byte,
    (∃ t, Host.Core.run Sys2Proof.core (prog.length / 2 + 1) (State.load prog) = .next t ∧ t.runState = .halted) ∧
    ∀ (n : Nat) (t : State), Host.Core.run Sys2Proof.core n (State.load prog) = .next t →
      t.runState = .running → n ≤ prog.length / 2

/-- 70_reset_and_hazards.md section 3 (derived from R25), as an invariant of the step: no `NegativeRadicandError`, and a
`MemoryRangeError` only from a `Sqrt` whose operand is 65536 or more (`State.ErrorsOnlyFromFarSqrt`), is kept by every
step from a legal state with bounded values, together with both, and holds after reset. The report is D9 (log entry 10),
the memory form log entry 4, the step of a `HALTED` state log entry 3. -/
def Obligations.StepKeepsErrorsOnlyFromFarSqrt : Prop :=
  (∀ s t : State, s.Legal → s.ValuesBounded → s.ErrorsOnlyFromFarSqrt → step s = .next t →
    t.Legal ∧ t.ValuesBounded ∧ t.ErrorsOnlyFromFarSqrt) ∧
  ∀ prog : List Byte, (State.load prog).ErrorsOnlyFromFarSqrt

/-- 40_engine_fsm.md section 5: `run(P)` always returns, and returns the final memory and halt report of the halted
state the run reaches. -/
def Obligations.RunReturnsTheFinalMemoryAndReport : Prop :=
  ∀ prog : List Byte, ∃ r t, runProgram prog = some r ∧ Reachable prog t ∧ t.runState = .halted ∧
    r.finalMemory = t.mem ∧ r.haltReason = t.haltReason ∧ r.haltPc = t.haltPc ∧ r.haltAddr = t.haltAddr ∧
    ∀ u, Reachable prog u → u.runState = .halted → u = t

/-- 20_memory.md section 8: the dump lists the clamped inclusive range in ascending order, one record per address,
with the word it holds (the clamping is D17, log entry 14). -/
def Obligations.DumpListsTheClampedRangeAscending : Prop :=
  ∀ (m : Memory) (start stop : Int),
    (dump m start stop).Pairwise (fun x y => x.1 < y.1) ∧
    ∀ (a : Nat) (v : Word), (a, v) ∈ dump m start stop ↔
      max start 0 ≤ (a : Int) ∧ (a : Int) ≤ min stop 65535 ∧ v = memRead m a

/-! ## The assembler -/

/-- R66: the operand range the assembler enforces per mnemonic, under either policy. -/
def Obligations.AssemblerEnforcesTheOperandRanges : Prop :=
  ∀ (policy : Config.UnknownMnemonicPolicy) (n : Int),
    ((∃ a, assemble policy [⟨"LoadConst", n⟩] = .ok a) ↔ 0 ≤ n ∧ n ≤ 8191) ∧
    ((∃ a, assemble policy [⟨"ReadMem", n⟩] = .ok a) ↔ 0 ≤ n ∧ n ≤ 2047) ∧
    ((∃ a, assemble policy [⟨"WriteMem", n⟩] = .ok a) ↔ 0 ≤ n ∧ n ≤ 2047) ∧
    ((∃ a, assemble policy [⟨"Sqrt", n⟩] = .ok a) ↔ 0 ≤ n ∧ n ≤ 1073741823)

/-- 30_encoding.md section 6: assembly is all or nothing: the concatenation of the encodings in request order, or the
first request in order that fails, by index, mnemonic and value, and no buffer. The index counts from 0 by decision
D18; an unknown mnemonic fails by decision D13 (log entry 13). -/
def Obligations.AssemblyIsAllOrNothing : Prop :=
  (∀ instrs : List Instr, (∀ i ∈ instrs, assemblerAccepts i.opcode i.operand = true) →
    ∀ names : Opcode → String, (∀ op, lookupMnemonic (names op) = some op) →
    ∃ a, assemble .error (instrs.map fun i => ⟨names i.opcode, i.operand⟩) = .ok a ∧
      a.buffer = instrs.flatMap encode) ∧
  ∀ (policy : Config.UnknownMnemonicPolicy) (good rest : List Request) (bad : Request) (op : Opcode),
    (∀ r ∈ good, ∃ op', lookupMnemonic r.mnemonic = some op' ∧ assemblerAccepts op' r.operand = true) →
    (lookupMnemonic bad.mnemonic = some op → assemblerAccepts op bad.operand = false →
      assemble policy (good ++ bad :: rest) =
        .error (.encodingRangeError good.length bad.mnemonic bad.operand)) ∧
    (lookupMnemonic bad.mnemonic = none →
      assemble .error (good ++ bad :: rest) = .error (.unknownMnemonicError good.length bad.mnemonic))

/-- 30_encoding.md section 6 (R72, decision D12; 90_conflicts.md C1; log entry 13): a `Sqrt` request from `2^29` to
`2^30 - 1` is accepted and assembles to the bytes of the request less `2^29`. -/
def Obligations.SqrtRequestLosesBit29 : Prop :=
  ∀ n : Nat, 536870912 ≤ n → n ≤ 1073741823 →
    assemblerAccepts .sqrt n = true ∧ encode (.sqrt n) = encode (.sqrt (n - 536870912))

/-- 30_encoding.md section 4 ("it is how every complete program ends"): a Program the assembler produced never halts
`Truncated` or `UnknownOpcode`: it ends at its end or in an execution error. The distinct causes are D9 (entry 10). -/
def Obligations.AssembledProgramsEndAtTheirEndOrInAnError : Prop :=
  ∀ prog : List Byte, AssemblerProduced prog → ∀ s : State, Reachable prog s →
    s.haltReason ≠ .truncated ∧ s.haltReason ≠ .unknownOpcode ∧
    (s.haltReason = .endOfProgram → s.haltPc = prog.length)

/-- 30_encoding.md sections 4 and 6, as an invariant of the step: `pc` stays at an instruction boundary of the encoded
instructions, neither `Truncated` nor `UnknownOpcode` is reported, and `EndOfProgram` only at the Program's end
(`State.OnEncodingOf`); the engine just reset with what the assembler makes of its requests, under either policy, has
it. The distinct causes are D9 (log entry 10), the policies D13 (entry 13), the step of a `HALTED` state entry 3. -/
def Obligations.StepStaysOnInstructionBoundaries : Prop :=
  (∀ (instrs : List Instr) (s t : State), s.OnEncodingOf instrs → step s = .next t → t.OnEncodingOf instrs) ∧
  ∀ (policy : Config.UnknownMnemonicPolicy) (requests : List Request) (a : Assembly),
    assemble policy requests = .ok a → (State.load a.buffer).OnEncodingOf (requestedInstrs requests)
end

