-- ==== Sys2Proof/Laws/Decode.lean ====
section
/-!
SUPPORT. The decoder and the encoder: small lemmas of the opcode map, and the four ways `decode` answers.
-/

namespace Sys2Proof

@[simp] theorem withOperand_opcode (op : Opcode) (k : Nat) : (op.withOperand k).opcode = op := by
  cases op <;> rfl

@[simp] theorem withOperand_operand (op : Opcode) (k : Nat) : (op.withOperand k).operand = k := by
  cases op <;> rfl

@[simp] theorem withOperand_width (op : Opcode) (k : Nat) : (op.withOperand k).width = op.width := by
  cases op <;> rfl

@[simp] theorem opcode_withOperand (i : Instr) : i.opcode.withOperand i.operand = i := by
  cases i <;> rfl

theorem opcode_width_cases (op : Opcode) : op.width = if op = .sqrt then 5 else 2 := by
  cases op <;> rfl

/-- An opcode ID is recognised as an operation exactly when it is that operation's ID. -/
theorem recogniseOpcode_eq_some_iff (b : BitVec 3) (op : Opcode) :
    recogniseOpcode b = some op ↔ b = BitVec.ofNat 3 op.id := by
  cases op <;> revert b <;> decide

theorem opcodeField_toNat (b : Byte) : (opcodeField b).toNat = b.toNat / 32 := by
  have := b.isLt
  simp only [opcodeField, BitVec.extractLsb'_toNat, Nat.shiftRight_eq_div_pow]
  omega

theorem operandHigh_toNat (b : Byte) : (operandHigh b).toNat = b.toNat % 32 := by
  simp [operandHigh, BitVec.extractLsb'_toNat]

/-- The four ways `decode` answers, each with the condition it answers so under. -/
theorem decode_cases (prog : List Byte) (off : Nat) :
    (prog.length ≤ off ∧ decode prog off = .endOfProgram) ∨
    (off < prog.length ∧ recogniseOpcode (opcodeField (progByte prog off)) = none ∧
      decode prog off = .unknownOpcode) ∨
    (∃ op, off < prog.length ∧ recogniseOpcode (opcodeField (progByte prog off)) = some op ∧
      prog.length - off < op.width ∧ decode prog off = .truncated) ∨
    ∃ op, off + op.width ≤ prog.length ∧ recogniseOpcode (opcodeField (progByte prog off)) = some op ∧
      decode prog off = .instr (op.withOperand (operandAt op prog off)) op.width := by
  by_cases hend : prog.length ≤ off
  · exact .inl ⟨hend, by simp [decode, hend]⟩
  · have hlt : off < prog.length := by omega
    cases hop : recogniseOpcode (opcodeField (progByte prog off)) with
    | none => exact .inr (.inl ⟨hlt, rfl, by simp [decode, hend, hop]⟩)
    | some op =>
      by_cases hw : prog.length - off < op.width
      · exact .inr (.inr (.inl ⟨op, hlt, rfl, hw, by simp [decode, hend, hop, hw]⟩))
      · exact .inr (.inr (.inr ⟨op, by omega, rfl, by simp [decode, hend, hop, hw]⟩))

end Sys2Proof
end

