-- ==== Sys2Proof/Laws/State.lean ====
section
/-!
SUPPORT. What each named update of the state does to each field, so that no proof unfolds a record update.
-/

namespace Sys2Proof.Machine

section push
variable (v : Word) (s : State)
@[simp] theorem push_prog : (push v s).prog = s.prog := rfl
@[simp] theorem push_runState : (push v s).runState = s.runState := rfl
@[simp] theorem push_pc : (push v s).pc = s.pc := rfl
@[simp] theorem push_stack : (push v s).stack = s.stack ++ [v] := rfl
@[simp] theorem push_mem : (push v s).mem = s.mem := rfl
@[simp] theorem push_haltReason : (push v s).haltReason = s.haltReason := rfl
@[simp] theorem push_haltPc : (push v s).haltPc = s.haltPc := rfl
@[simp] theorem push_haltAddr : (push v s).haltAddr = s.haltAddr := rfl
end push

section advance
variable (w : Nat) (s : State)
@[simp] theorem advance_prog : (advance w s).prog = s.prog := rfl
@[simp] theorem advance_runState : (advance w s).runState = s.runState := rfl
@[simp] theorem advance_pc : (advance w s).pc = s.pc + w := rfl
@[simp] theorem advance_stack : (advance w s).stack = s.stack := rfl
@[simp] theorem advance_mem : (advance w s).mem = s.mem := rfl
@[simp] theorem advance_haltReason : (advance w s).haltReason = s.haltReason := rfl
@[simp] theorem advance_haltPc : (advance w s).haltPc = s.haltPc := rfl
@[simp] theorem advance_haltAddr : (advance w s).haltAddr = s.haltAddr := rfl
end advance

section store
variable (a : Nat) (v : Word) (s : State)
@[simp] theorem store_prog : (store a v s).prog = s.prog := rfl
@[simp] theorem store_runState : (store a v s).runState = s.runState := rfl
@[simp] theorem store_pc : (store a v s).pc = s.pc := rfl
@[simp] theorem store_stack : (store a v s).stack = s.stack := rfl
@[simp] theorem store_mem : (store a v s).mem = memWrite s.mem a v := rfl
@[simp] theorem store_haltReason : (store a v s).haltReason = s.haltReason := rfl
@[simp] theorem store_haltPc : (store a v s).haltPc = s.haltPc := rfl
@[simp] theorem store_haltAddr : (store a v s).haltAddr = s.haltAddr := rfl
end store

section haltWith
variable (r : HaltReason) (a : Int) (s : State)
@[simp] theorem haltWith_prog : (haltWith r a s).prog = s.prog := rfl
@[simp] theorem haltWith_runState : (haltWith r a s).runState = .halted := rfl
@[simp] theorem haltWith_pc : (haltWith r a s).pc = s.pc := rfl
@[simp] theorem haltWith_stack : (haltWith r a s).stack = s.stack := rfl
@[simp] theorem haltWith_mem : (haltWith r a s).mem = s.mem := rfl
@[simp] theorem haltWith_haltReason : (haltWith r a s).haltReason = r := rfl
@[simp] theorem haltWith_haltPc : (haltWith r a s).haltPc = s.pc := rfl
@[simp] theorem haltWith_haltAddr : (haltWith r a s).haltAddr = a := rfl
end haltWith

section load
variable (p : List Byte)
@[simp] theorem load_prog : (State.load p).prog = p := rfl
@[simp] theorem load_runState : (State.load p).runState = .running := rfl
@[simp] theorem load_pc : (State.load p).pc = 0 := rfl
@[simp] theorem load_stack : (State.load p).stack = [] := rfl
@[simp] theorem load_mem : (State.load p).mem = [] := rfl
@[simp] theorem load_haltReason : (State.load p).haltReason = .none := rfl
@[simp] theorem load_haltPc : (State.load p).haltPc = 0 := rfl
@[simp] theorem load_haltAddr : (State.load p).haltAddr = 0 := rfl
end load

section armFetch
variable (bs : List Byte) (s : State)
@[simp] theorem resume_runState : (resume s).runState = .running := by
  unfold resume; split <;> simp_all
@[simp] theorem resume_pc : (resume s).pc = s.pc := by unfold resume; split <;> rfl
@[simp] theorem resume_stack : (resume s).stack = s.stack := by unfold resume; split <;> rfl
@[simp] theorem resume_mem : (resume s).mem = s.mem := by unfold resume; split <;> rfl
@[simp] theorem armFetch_prog : (armFetch bs s).prog = overlay s.prog s.pc bs := rfl
@[simp] theorem armFetch_runState : (armFetch bs s).runState = .running := resume_runState s
@[simp] theorem armFetch_pc : (armFetch bs s).pc = s.pc := resume_pc s
@[simp] theorem armFetch_stack : (armFetch bs s).stack = s.stack := resume_stack s
@[simp] theorem armFetch_mem : (armFetch bs s).mem = s.mem := resume_mem s
end armFetch

end Sys2Proof.Machine
end

