-- ==== Sys2Proof/Laws/Ops.lean ====
section
/-!
SUPPORT. What each shared operation can do, said once: the stack, the halt entry, the checked forms, and the
canonical form of data memory, which every memory operation keeps.
-/

namespace Sys2Proof.Machine

/-! ## Pop and the halt entry -/

theorem pop_of_nil {s : State} (h : s.stack = []) : pop s = none := by
  simp [pop, h]

theorem pop_of_concat {s : State} {xs : List Word} {v : Word} (h : s.stack = xs ++ [v]) :
    pop s = some (v, { s with stack := xs }) := by
  simp [pop, h]

/-- `pop` answers in one of two ways. -/
theorem pop_cases (s : State) :
    (s.stack = [] ∧ pop s = none) ∨
      ∃ xs v, s.stack = xs ++ [v] ∧ pop s = some (v, { s with stack := xs }) := by
  rcases List.eq_nil_or_concat' s.stack with h | ⟨xs, v, h⟩
  · exact .inl ⟨h, pop_of_nil h⟩
  · exact .inr ⟨xs, v, h, pop_of_concat h⟩

theorem raise_eq (e : ExecError) (s : State) : raise e s = .next (haltWith e.reason e.address s) := rfl

theorem cleanHalt_eq (r : HaltReason) (s : State) : cleanHalt r s = .next (haltWith r 0 s) := rfl

/-- No execution error reports `None`, and each is of the error class. -/
theorem ExecError.reason_isError (e : ExecError) : e.reason.isError = true := by
  cases e <;> rfl

theorem HaltReason.isError_ne_none {r : HaltReason} (h : r.isError = true) : r ≠ .none := by
  rintro rfl; cases h

/-! ## The checked forms -/

theorem withPop_of_nil {s : State} (h : s.stack = []) (rest : Word → State → Result) :
    withPop s rest = .next (haltWith .stackUnderflow 0 s) := by
  simp [withPop, pop_of_nil h, raise, ExecError.reason, ExecError.address]

theorem withPop_of_concat {s : State} {xs : List Word} {v : Word} (h : s.stack = xs ++ [v])
    (rest : Word → State → Result) : withPop s rest = rest v { s with stack := xs } := by
  simp [withPop, pop_of_concat h]

/-- A `pop()` inside an instruction: the underflow halt, or the rest of the instruction on the state without the top. -/
theorem withPop_next {s t : State} {rest : Word → State → Result} (h : withPop s rest = .next t) :
    (s.stack = [] ∧ t = haltWith .stackUnderflow 0 s) ∨
      ∃ xs v, s.stack = xs ++ [v] ∧ rest v { s with stack := xs } = .next t := by
  rcases List.eq_nil_or_concat' s.stack with hs | ⟨xs, v, hs⟩
  · rw [withPop_of_nil hs] at h
    exact .inl ⟨hs, (Host.Outcome.next.inj h).symm⟩
  · rw [withPop_of_concat hs] at h
    exact .inr ⟨xs, v, hs, h⟩

theorem addressInRange_iff (a : Int) : addressInRange a = true ↔ 0 ≤ a ∧ a < 65536 := by
  simp [addressInRange]

theorem addressInRange_eq_false_iff (a : Int) : addressInRange a = false ↔ a < 0 ∨ 65536 ≤ a := by
  rw [← Bool.not_eq_true, addressInRange_iff]; omega

theorem withDataAddress_of_mem {a : Int} (h : 0 ≤ a ∧ a < 65536) (s : State) (rest : Nat → Result) :
    withDataAddress a s rest = rest a.toNat := by
  simp [withDataAddress, (addressInRange_iff a).2 h]

theorem withDataAddress_of_not_mem {a : Int} (h : a < 0 ∨ 65536 ≤ a) (s : State) (rest : Nat → Result) :
    withDataAddress a s rest = .next (haltWith .memoryRangeError a s) := by
  simp [withDataAddress, (addressInRange_eq_false_iff a).2 h, raise, ExecError.reason, ExecError.address]

/-- The range check: the rest of the instruction on an address inside data memory, or the range halt with the address
unwrapped. -/
theorem withDataAddress_next {a : Int} {s t : State} {rest : Nat → Result}
    (h : withDataAddress a s rest = .next t) :
    (0 ≤ a ∧ a < 65536 ∧ rest a.toNat = .next t) ∨
      ((a < 0 ∨ 65536 ≤ a) ∧ t = haltWith .memoryRangeError a s) := by
  by_cases ha : 0 ≤ a ∧ a < 65536
  · rw [withDataAddress_of_mem ha] at h
    exact .inl ⟨ha.1, ha.2, h⟩
  · have ha' : a < 0 ∨ 65536 ≤ a := by omega
    rw [withDataAddress_of_not_mem ha'] at h
    exact .inr ⟨ha', (Host.Outcome.next.inj h).symm⟩

theorem radicandNegative_iff (v : Word) : radicandNegative v = true ↔ v.toInt < 0 := by
  simp [radicandNegative]

/-! ## Data memory keeps its canonical form -/

theorem listedCell_address {a : Nat} {v : Word} {c : Nat × Word} (h : c ∈ listedCell a v) : c.1 = a := by
  unfold listedCell at h
  split at h <;> simp_all

theorem listedCell_wf {a : Nat} (ha : a < 65536) (v : Word) : (listedCell a v).wf := by
  unfold listedCell
  split <;> simp_all [Memory.wf]

/-- An address listed after a write is the written one or was listed before. -/
theorem memWrite_address {m : Memory} {a : Nat} {v : Word} {c : Nat × Word} (h : c ∈ memWrite m a v) :
    c.1 = a ∨ c ∈ m := by
  induction m with
  | nil => exact .inl (listedCell_address h)
  | cons d rest ih =>
    obtain ⟨b, w⟩ := d
    unfold memWrite at h
    split at h
    · rcases List.mem_append.1 h with h | h
      · exact .inl (listedCell_address h)
      · exact .inr h
    · split at h
      · rcases List.mem_append.1 h with h | h
        · exact .inl (listedCell_address h)
        · exact .inr (List.mem_cons_of_mem _ h)
      · rcases List.mem_cons.1 h with h | h
        · exact .inr (h ▸ List.mem_cons_self ..)
        · exact (ih h).imp_right (List.mem_cons_of_mem _)

theorem Memory.wf_cons {c : Nat × Word} {rest : Memory} :
    Memory.wf (c :: rest) ↔
      (∀ d ∈ rest, c.1 < d.1) ∧ c.1 < 65536 ∧ c.2 ≠ unlistedWord ∧ rest.wf := by
  simp only [Memory.wf, List.pairwise_cons, List.forall_mem_cons]
  tauto

/-- Two canonical memories, the first wholly below the second, are canonical together. -/
theorem Memory.wf_append {m n : Memory} (hm : m.wf) (hn : n.wf) (h : ∀ c ∈ m, ∀ d ∈ n, c.1 < d.1) :
    Memory.wf (m ++ n) := by
  refine ⟨List.pairwise_append.2 ⟨hm.1, hn.1, h⟩, fun c hc => ?_⟩
  rcases List.mem_append.1 hc with hc | hc
  exacts [hm.2 c hc, hn.2 c hc]

/-- Every memory operation keeps the canonical form: a write inside the 65536 words does (a read changes nothing). -/
theorem memWrite_wf {m : Memory} (hm : m.wf) {a : Nat} (ha : a < 65536) (v : Word) :
    (memWrite m a v).wf := by
  induction m with
  | nil => exact listedCell_wf ha v
  | cons d rest ih =>
    obtain ⟨b, w⟩ := d
    obtain ⟨hlt, hb, hw, hrest⟩ := Memory.wf_cons.1 hm
    unfold memWrite
    split
    · refine Memory.wf_append (listedCell_wf ha v) hm fun c hc d hd => ?_
      rw [listedCell_address hc]
      rcases List.mem_cons.1 hd with rfl | hd
      exacts [‹a < b›, lt_trans ‹a < b› (hlt d hd)]
    · split
      · subst a
        refine Memory.wf_append (listedCell_wf ha v) hrest fun c hc d hd => ?_
        rw [listedCell_address hc]
        exact hlt d hd
      · refine Memory.wf_cons.2 ⟨fun d hd => ?_, hb, hw, ih hrest⟩
        rcases memWrite_address hd with h | h
        · omega
        · exact hlt d h

theorem reset_mem_wf : State.reset.mem.wf := by decide

end Sys2Proof.Machine
end

