-- ==== Sys2Proof/Laws/Exec.lean ====
section
/-!
SUPPORT. Inversion lemmas: everything a meaning, and a step, can have done when it answers a next state. Invariants
and frames cite these and do not unfold the meanings.
-/

namespace Sys2Proof.Machine

variable {s t : State}

theorem execLoadConst_next {k : Nat} (h : execLoadConst k s = .next t) :
    t = advance 2 (push (constantWord k) s) := by
  exact (Host.Outcome.next.inj h).symm

theorem execReadMem_next {offset : Nat} (h : execReadMem offset s = .next t) :
    (s.stack = [] ∧ t = haltWith .stackUnderflow 0 s) ∨
      ∃ xs b, s.stack = xs ++ [b] ∧
        ((0 ≤ baseOffsetAddress b offset ∧ baseOffsetAddress b offset < 65536 ∧
            t = advance 2 (push (memRead s.mem (baseOffsetAddress b offset).toNat) { s with stack := xs })) ∨
          ((baseOffsetAddress b offset < 0 ∨ 65536 ≤ baseOffsetAddress b offset) ∧
            t = haltWith .memoryRangeError (baseOffsetAddress b offset) { s with stack := xs })) := by
  rcases withPop_next h with h | ⟨xs, b, hs, h⟩
  · exact .inl h
  · refine .inr ⟨xs, b, hs, ?_⟩
    rcases withDataAddress_next h with ⟨h0, h1, h⟩ | h
    · exact .inl ⟨h0, h1, (Host.Outcome.next.inj h).symm⟩
    · exact .inr h

theorem execWriteMem_next {offset : Nat} (h : execWriteMem offset s = .next t) :
    (s.stack = [] ∧ t = haltWith .stackUnderflow 0 s) ∨
      (∃ v, s.stack = [v] ∧ t = haltWith .stackUnderflow 0 { s with stack := [] }) ∨
      ∃ xs b v, s.stack = xs ++ [b, v] ∧
        ((0 ≤ baseOffsetAddress b offset ∧ baseOffsetAddress b offset < 65536 ∧
            t = advance 2 (store (baseOffsetAddress b offset).toNat v { s with stack := xs })) ∨
          ((baseOffsetAddress b offset < 0 ∨ 65536 ≤ baseOffsetAddress b offset) ∧
            t = haltWith .memoryRangeError (baseOffsetAddress b offset) { s with stack := xs })) := by
  rcases withPop_next h with h | ⟨ys, v, hs, h⟩
  · exact .inl h
  · rcases withPop_next h with ⟨hy, h⟩ | ⟨xs, b, hy, h⟩
    · obtain rfl : ys = [] := hy
      exact .inr (.inl ⟨v, hs, h⟩)
    · obtain rfl : ys = xs ++ [b] := hy
      refine .inr (.inr ⟨xs, b, v, by simp [hs], ?_⟩)
      rcases withDataAddress_next h with ⟨h0, h1, h⟩ | h
      · exact .inl ⟨h0, h1, (Host.Outcome.next.inj h).symm⟩
      · exact .inr h

theorem execSqrt_next {address : Nat} (h : execSqrt address s = .next t) :
    (s.stack = [] ∧ t = haltWith .stackUnderflow 0 s) ∨
      ∃ xs v, s.stack = xs ++ [v] ∧
        ((v.toInt < 0 ∧ t = haltWith .negativeRadicandError 0 { s with stack := xs }) ∨
          (0 ≤ v.toInt ∧ address < 65536 ∧
            t = advance 5 (store address (rootWord v) { s with stack := xs })) ∨
          (0 ≤ v.toInt ∧ 65536 ≤ address ∧
            t = haltWith .memoryRangeError address { s with stack := xs })) := by
  rcases withPop_next h with h | ⟨xs, v, hs, h⟩
  · exact .inl h
  · refine .inr ⟨xs, v, hs, ?_⟩
    by_cases hv : v.toInt < 0
    · rw [if_pos ((radicandNegative_iff v).2 hv)] at h
      exact .inl ⟨hv, (Host.Outcome.next.inj h).symm⟩
    · rw [if_neg (by simpa [radicandNegative_iff] using hv)] at h
      rcases withDataAddress_next h with ⟨_, h1, h⟩ | ⟨h1, h⟩
      · simp only [absoluteAddress, Int.toNat_natCast] at h h1
        exact .inr (.inl ⟨by omega, by omega, (Host.Outcome.next.inj h).symm⟩)
      · simp only [absoluteAddress] at h h1
        exact .inr (.inr ⟨by omega, by omega, h⟩)

theorem core_step (s : State) : Sys2Proof.core.step s = step s := rfl

theorem step_of_halted (h : s.runState = .halted) : step s = .next s := by
  unfold step; rw [h]; rfl

/-- A step that answers a next state: a halted engine as it is, an executed instruction, or a clean halt. -/
theorem step_next (h : step s = .next t) :
    (s.runState = .halted ∧ t = s) ∨
    (s.runState = .running ∧ ∃ i w, decode s.prog s.pc = .instr i w ∧ exec i s = .next t) ∨
    (s.runState = .running ∧ decode s.prog s.pc = .endOfProgram ∧ t = haltWith .endOfProgram 0 s) ∨
    (s.runState = .running ∧ decode s.prog s.pc = .truncated ∧ t = haltWith .truncated 0 s) ∨
    (s.runState = .running ∧ decode s.prog s.pc = .unknownOpcode ∧ t = haltWith .unknownOpcode 0 s) := by
  unfold step at h
  split at h
  · exact .inl ⟨‹_›, (Host.Outcome.next.inj h).symm⟩
  · refine .inr ?_
    split at h
    · exact .inl ⟨‹_›, _, _, ‹_›, h⟩
    · exact .inr (.inl ⟨‹_›, ‹_›, (Host.Outcome.next.inj h).symm⟩)
    · exact .inr (.inr (.inl ⟨‹_›, ‹_›, (Host.Outcome.next.inj h).symm⟩))
    · exact .inr (.inr (.inr ⟨‹_›, ‹_›, (Host.Outcome.next.inj h).symm⟩))

end Sys2Proof.Machine
end

