-- ==== Sys2Proof/Laws/PerInstr.lean ====
section
/-!
SUPPORT. Facts made for every instruction, one lemma per constructor.
-/

namespace Sys2Proof.Laws.EncodeLength

/-- The encoding of an instruction, well-formed or not, has as many bytes as the instruction's declared width
(R50, R54, R65). -/
def Statement (i : Instr) : Prop := (encode i).length = i.width

theorem sqrt (address : Nat) : Statement (.sqrt address) := rfl
theorem writeMem (offset : Nat) : Statement (.writeMem offset) := rfl
theorem loadConst (k : Nat) : Statement (.loadConst k) := rfl
theorem readMem (offset : Nat) : Statement (.readMem offset) := rfl

end Sys2Proof.Laws.EncodeLength
end

