-- ==== Sys2Proof/Tests/Slice0.lean ====
section
/-!
SUPPORT. Tests: ill-formed instructions refused, words written out from the spec's encodings decoded, one step of each
instruction on small states (expected values from spec/95_test_vectors.md), and for each statement with hypotheses a
state and operands that meet them.
-/

namespace Sys2Proof.Machine.Tests

/-! ## Helpers -/

/-- A running engine with a Program, a stack (bottom first) and a data memory. -/
def engine (prog : List Byte) (stack : List Word) (mem : Memory) : State :=
  { State.load prog with stack := stack, mem := mem }

/-- The same, halted by `EndOfProgram` at offset 0. -/
def haltedEngine : State := haltWith .endOfProgram 0 (State.load [])

/-- The next state a result answers, if it answers one. -/
def answer : Result → Option State
  | .next t => some t
  | .fault _ => none
  | .refused _ => none

theorem eq_next_of_answer {r : Result} {t : State} (h : answer r = some t) : r = .next t := by
  cases r <;> simp_all [answer]

/-! ## WellFormed refuses an operand wider than its field -/

theorem test_wellFormed_accepts_field_maxima :
    (Instr.loadConst 8191).wellFormed = true ∧ (Instr.readMem 8191).wellFormed = true ∧
      (Instr.writeMem 8191).wellFormed = true ∧ (Instr.sqrt 536870911).wellFormed = true := by decide

theorem test_wellFormed_refuses_loadConst : (Instr.loadConst 8192).wellFormed = false := by decide
theorem test_wellFormed_refuses_readMem : (Instr.readMem 8192).wellFormed = false := by decide
theorem test_wellFormed_refuses_writeMem : (Instr.writeMem 8192).wellFormed = false := by decide
theorem test_wellFormed_refuses_sqrt : (Instr.sqrt 536870912).wellFormed = false := by decide

/-! ## Decoding: words written out bit by bit from 30_encoding.md R51 to R53 (`ooo ppppp pppppppp`, and
`001 aaaaa aaaaaaaa aaaaaaaa aaaaaaaa zzzzzzzz`) -/

theorem test_decode_sqrt :
    decode [0b00100001, 0b00100011, 0b01000101, 0b01100111, 0b00000000] 0 = .instr (.sqrt 0x01234567) 5 := by
  decide
theorem test_decode_writeMem : decode [0b01000001, 0b00000010] 0 = .instr (.writeMem 0x102) 2 := by decide
theorem test_decode_loadConst : decode [0b10010010, 0b00110100] 0 = .instr (.loadConst 0x1234) 2 := by decide
theorem test_decode_readMem : decode [0b11111111, 0b11111111] 0 = .instr (.readMem 0x1FFF) 2 := by decide
/-- 95_test_vectors.md section 2.3: the pad value is ignored. -/
theorem test_decode_pad_ignored : decode [0x20, 0x00, 0x00, 0x32, 0xAB] 0 = .instr (.sqrt 50) 5 := by decide
/-- 95_test_vectors.md section 2.3: every unrecognised ID, every truncation length, the end. -/
theorem test_decode_halts :
    decode [0x00, 0x00] 0 = .unknownOpcode ∧ decode [0x60, 0x00] 0 = .unknownOpcode ∧
      decode [0xA0, 0x00] 0 = .unknownOpcode ∧ decode [0xC0, 0x00] 0 = .unknownOpcode ∧
      decode [0x1F] 0 = .unknownOpcode ∧ decode [0x80] 0 = .truncated ∧ decode [0x40] 0 = .truncated ∧
      decode [0xE0] 0 = .truncated ∧ decode [0x3F] 0 = .truncated ∧ decode [0x20, 0x00] 0 = .truncated ∧
      decode [0x20, 0x00, 0x00] 0 = .truncated ∧ decode [0x20, 0x00, 0x00, 0x32] 0 = .truncated ∧
      decode [] 0 = .endOfProgram ∧ decode [0x80, 0x64] 2 = .endOfProgram := by decide
/-- 95_test_vectors.md sections 2.1 and 2.2: bytes the encoder must give. -/
theorem test_encode :
    encode (.loadConst 4660) = [0x92, 0x34] ∧ encode (.writeMem 2047) = [0x47, 0xFF] ∧
      encode (.readMem 4) = [0xE0, 0x04] ∧ encode (.sqrt 65536) = [0x20, 0x01, 0x00, 0x00, 0x00] ∧
      encode (.sqrt 1073741823) = [0x3F, 0xFF, 0xFF, 0xFF, 0x00] := by decide
/-- The table's numbering: opcode in bits 15:13 of 16, or 39:37 of 40 (spec/opcode_table.json). -/
theorem test_decodeTableWord :
    decodeTableWord 16 0x4001 = some (.writeMem 1) ∧ decodeTableWord 16 0x9FFF = some (.loadConst 8191) ∧
      decodeTableWord 16 0xE004 = some (.readMem 4) ∧ decodeTableWord 40 0x2000003200 = some (.sqrt 50) ∧
      decodeTableWord 16 0x6000 = none := by decide

/-! ## One step of each instruction (95_test_vectors.md sections 2.4 to 2.7) -/

theorem test_loadConst_not_sign_extended :
    (answer (step (engine [0x9F, 0xFF] [5, 6] []))).map (fun t => (t.pc, t.stack)) =
      some (2, [5, 6, 8191]) := by decide
theorem test_readMem_base_plus_offset :
    (answer (step (engine [0xE0, 0x04] [1020] [(1024, 77)]))).map (fun t => (t.pc, t.stack, t.mem)) =
      some (2, [77], [(1024, 77)]) := by decide
theorem test_readMem_sum_does_not_wrap :
    (answer (step (engine [0xE0, 0x01] [2147483647] []))).map (fun t => (t.haltReason, t.haltAddr, t.stack)) =
      some (.memoryRangeError, 2147483648, []) := by decide
theorem test_writeMem_value_on_top :
    (answer (step (engine [0x40, 0x00] [1, 100, 3] [(7, 9)]))).map (fun t => (t.pc, t.stack, t.mem)) =
      some (2, [1], [(7, 9), (100, 3)]) := by decide
theorem test_writeMem_second_pop_underflow :
    (answer (step (engine [0x40, 0x00] [7] []))).map (fun t => (t.haltReason, t.pc, t.stack, t.mem)) =
      some (.stackUnderflow, 0, [], []) := by decide
theorem test_sqrt_one_below_a_square :
    (answer (step (engine [0x20, 0x00, 0xFF, 0xFF, 0x00] [3, 15] []))).map (fun t => (t.pc, t.stack, t.mem)) =
      some (5, [3], [(65535, 3)]) := by decide
theorem test_sqrt_sign_before_address :
    (answer (step (engine [0x20, 0x01, 0x00, 0x00, 0x00] [-1] []))).map
      (fun t => (t.haltReason, t.haltAddr, t.pc, t.mem)) =
      some (.negativeRadicandError, 0, 0, []) := by decide
/-- Values of 95_test_vectors.md section 2.6. -/
theorem test_isqrt_values :
    [0, 1, 2, 3, 4, 8, 9, 24, 25, 99, 8099, 8100, 8191, 8281, 65535, 65536, 2147483647].map isqrt =
      [0, 1, 1, 1, 2, 2, 3, 4, 5, 9, 89, 90, 90, 91, 255, 256, 46340] := by decide
/-- Storing 0 removes the entry, so that equal memories are equal data. -/
theorem test_memWrite_zero_is_unlisted : memWrite [(100, 3)] 100 0 = [] := by decide
/-- 95_test_vectors.md section 2.8. -/
theorem test_dump_clamps :
    dump [(100, 3)] 99 101 = [(99, 0), (100, 3), (101, 0)] ∧ dump [] (-5) 1 = [(0, 0), (1, 0)] ∧
      dump [] 65534 70000 = [(65534, 0), (65535, 0)] ∧ dump [] 10 5 = [] ∧ dump [] 70000 70001 = [] := by decide
/-- 95_test_vectors.md sections 1.1 and 1.6, and R69. -/
theorem test_assemble :
    assemble .error [⟨"LoadConst", 100⟩, ⟨"Sqrt", 50⟩] =
        .ok { buffer := [0x80, 0x64, 0x20, 0x00, 0x00, 0x32, 0x00],
              diagnostics := [⟨0, 4, 100, "80 64"⟩, ⟨1, 1, 50, "20 00 00 32 00"⟩] } ∧
      assemble .error [⟨"LoadConst", 8192⟩] = .error (.encodingRangeError 0 "LoadConst" 8192) ∧
      assemble .error [⟨"Jump", 0⟩] = .error (.unknownMnemonicError 0 "Jump") ∧
      assemble .skip [⟨"Jump", 0⟩] = .ok { buffer := [], diagnostics := [] } := by
  refine ⟨rfl, rfl, rfl, rfl⟩
/-- The host's placing: from reset, from an engine that has moved on, and from a halted one, the next step runs it. -/
theorem test_withFetchWord :
    (answer (step (State.reset.withFetchWord 16 0x8064))).map (·.stack) = some [100] ∧
      (answer (step ({ engine [0, 0] [16] [] with pc := 2 }.withFetchWord 40 0x2000003200))).map (·.mem) =
        some [(50, 4)] ∧
      (answer (step (haltedEngine.withFetchWord 16 0x8064))).map (·.stack) = some [100] := by decide
/-- The three clean halts in `halt_reason`, by a step (95_test_vectors.md section 2.7). -/
theorem test_clean_halts :
    (answer (step (State.load []))).map (·.haltReason) = some .endOfProgram ∧
      (answer (step (State.load [0x80]))).map (·.haltReason) = some .truncated ∧
      (answer (step (State.load [0x60]))).map (·.haltReason) = some .unknownOpcode := by decide

/-! ## Witnesses: for each statement with hypotheses, a state and operands that meet them, clause by clause -/

theorem witness_PushAppendsAndPopTakesTheTop :
    (engine [] [1, 2] []).stack = [1] ++ [2] ∧ (engine [] [] []).stack = [] ∧
      (engine [] [1, 2] []).runState = .running ∧
      (answer (exec (.loadConst 5) (engine [] [1, 2] []))).map (·.runState) = some .running ∧
      (answer (exec (.readMem 0) (engine [] [1, 2] []))).map (·.runState) = some .running ∧
      (answer (exec (.writeMem 0) (engine [] [1, 2] []))).map (·.runState) = some .running ∧
      (answer (exec (.sqrt 0) (engine [] [1, 2] []))).map (·.runState) = some .running := by decide

theorem witness_DataMemoryReadsBackTheLatestWrite :
    Memory.wf [(0, 1), (65535, 2)] ∧ 65535 < 65536 ∧ (0 : Nat) ≠ 65535 := by decide

theorem witness_MemoriesWithTheSameWordsAreEqual :
    Memory.wf [(65535, 2)] ∧ Memory.wf (memWrite (memWrite [(65535, 2)] 3 1) 3 0) ∧
      memWrite (memWrite [(65535, 2)] 3 1) 3 0 = [(65535, 2)] := by decide

/-- Every range of byte 1, at both ends. -/
theorem witness_FirstByteSelectsTheInstruction :
    ∀ b ∈ ([0x00, 0x1F, 0x20, 0x3F, 0x40, 0x5F, 0x60, 0x7F, 0x80, 0x9F, 0xA0, 0xBF, 0xC0, 0xDF, 0xE0, 0xFF] : List Byte),
      0 + 5 ≤ [b, 0, 0, 0, 0].length ∧ [b, 0, 0, 0, 0].getD 0 0 = b := by decide

theorem witness_EndOfProgramExactlyAtTheBufferLength :
    2 ≤ ([0x80, 0x64] : List Byte).length ∧ 0 ≤ ([0x80, 0x64] : List Byte).length := by decide

theorem witness_UnknownOpcodeBeforeTruncationAndEndPastTheEnd :
    0 < ([0x1F] : List Byte).length ∧ ([0x1F] : List Byte).length < 2 := by decide

theorem witness_TruncatedExactlyWhenBytesAreMissing :
    0 < ([0x20, 0x00, 0x00, 0x32] : List Byte).length ∧
      (State.load [0x20, 0x00, 0x00, 0x32]).runState = .running ∧
      decode (State.load [0x20, 0x00, 0x00, 0x32]).prog (State.load [0x20, 0x00, 0x00, 0x32]).pc = .truncated := by
  decide

theorem witness_LengthIsAFunctionOfTheOpcodeId :
    decode [0x20, 0, 0, 0, 0] 0 = .instr (.sqrt 0) 5 ∧ decode [0x5F, 0xFF] 0 = .instr (.writeMem 8191) 2 ∧
      decode [0x80, 0] 0 = .instr (.loadConst 0) 2 ∧ decode [0xE0, 0] 0 = .instr (.readMem 0) 2 := by decide

/-- Each opcode of the short format, with the smallest and the largest field. -/
theorem witness_ShortOperandIsTheThirteenBitField :
    (∀ b ∈ ([0x40, 0x5F] : List Byte), 0 + 2 ≤ [b, 0xFF].length ∧ ([b, 0xFF].getD 0 0).toNat / 32 = 2) ∧
      (∀ b ∈ ([0x80, 0x9F] : List Byte), 0 + 2 ≤ [b, 0xFF].length ∧ ([b, 0xFF].getD 0 0).toNat / 32 = 4) ∧
      (∀ b ∈ ([0xE0, 0xFF] : List Byte), 0 + 2 ≤ [b, 0xFF].length ∧ ([b, 0xFF].getD 0 0).toNat / 32 = 7) := by
  decide

theorem witness_LongOperandIsTheTwentyNineBitField :
    0 + 5 ≤ ([0x3F, 0xFF, 0xFF, 0xFF, 0xAB] : List Byte).length ∧
      (([0x3F, 0xFF, 0xFF, 0xFF, 0xAB] : List Byte).getD 0 0).toNat / 32 = 1 := by decide

theorem witness_DecodeOfEncodeIsTheInstruction :
    (Instr.sqrt 536870911).wellFormed = true ∧ (Instr.readMem 8191).wellFormed = true ∧
      (Instr.writeMem 0).wellFormed = true ∧ (Instr.loadConst 8191).wellFormed = true := by decide

theorem witness_EncodeOfDecodeIsTheBytes :
    decode [0x20, 0x00, 0x00, 0x32, 0xAB] 0 = .instr (.sqrt 50) 5 ∧ 0 < 5 ∧ (0 : Nat) ≠ 4 ∧
      decode [0xFF, 0xFF] 0 = .instr (.readMem 8191) 2 := by decide

theorem witness_StepRunsTheDecodedInstructionOrHaltsCleanly :
    (State.load [0x80, 0x64]).runState = .running ∧
      decode (State.load [0x80, 0x64]).prog (State.load [0x80, 0x64]).pc = .instr (.loadConst 100) 2 ∧
      decode (State.load []).prog (State.load []).pc = .endOfProgram ∧
      decode (State.load [0x80]).prog (State.load [0x80]).pc = .truncated ∧
      decode (State.load [0x60]).prog (State.load [0x60]).pc = .unknownOpcode := by decide

theorem witness_CleanHaltWritesTheReportAndNothingElse :
    (State.load []).runState = .running ∧ decode (State.load []).prog (State.load []).pc = .endOfProgram ∧
      decode (State.load [0xE0]).prog (State.load [0xE0]).pc = .truncated ∧
      decode (State.load [0xDF]).prog (State.load [0xDF]).pc = .unknownOpcode := by decide

theorem witness_HaltedEngineStaysAsItIs : haltedEngine.runState = .halted := by decide

theorem witness_EveryHaltIsReported :
    (State.load []).runState = .running ∧ step (State.load []) = .next haltedEngine ∧
      haltedEngine.runState = .halted ∧ Reachable [] haltedEngine :=
  ⟨rfl, rfl, rfl, .step .load rfl⟩

theorem witness_LoadConstPushesTheConstant :
    8191 ≤ 8191 ∧ 0 ≤ 8191 ∧ (engine [] [] []).runState = .running := by decide

/-- The first and the last word address; the base of the first is negative. -/
theorem witness_ReadMemReplacesTheBaseByTheWordRead :
    (engine [] [9, -1] []).runState = .running ∧ (engine [] [9, -1] []).stack = [9] ++ [-1] ∧
      0 ≤ (-1 : Word).toInt + (1 : Nat) ∧ (-1 : Word).toInt + (1 : Nat) < 65536 ∧
      (engine [] [9, 65535] []).stack = [9] ++ [65535] ∧
      0 ≤ (65535 : Word).toInt + (0 : Nat) ∧ (65535 : Word).toInt + (0 : Nat) < 65536 := by decide

theorem witness_WriteMemStoresTheTopAtTheBaseBelowIt :
    (engine [] [1, 65530, -4] []).runState = .running ∧ (engine [] [1, 65530, -4] []).stack = [1] ++ [65530, -4] ∧
      0 ≤ (65530 : Word).toInt + (5 : Nat) ∧ (65530 : Word).toInt + (5 : Nat) < 65536 := by decide

theorem witness_SqrtStoresTheFloorRootAtTheLiteralAddress :
    (engine [] [3, 2147483647] []).runState = .running ∧ (engine [] [3, 2147483647] []).stack = [3] ++ [2147483647] ∧
      0 ≤ (2147483647 : Word).toInt ∧ 65535 < 65536 := by decide

theorem witness_IsqrtIsTheFloorOfTheSquareRoot : 15 ≤ 16 ∧ 1 ≤ 1 := by decide

/-- Underflow, one address below data memory and the first one above it. -/
theorem witness_ReadMemHaltsOnUnderflowAndRange :
    (engine [] [] []).runState = .running ∧ (engine [] [] []).stack = [] ∧
      (engine [] [-1] []).stack = [] ++ [-1] ∧ (-1 : Word).toInt + (0 : Nat) < 0 ∧
      (engine [] [65535] []).stack = [] ++ [65535] ∧ 65536 ≤ (65535 : Word).toInt + (1 : Nat) := by decide

theorem witness_WriteMemHaltsOnUnderflowAndRange :
    (engine [] [7] []).runState = .running ∧ (engine [] [7] []).stack.length ≤ 1 ∧
      (engine [] [] []).stack.length ≤ 1 ∧ (engine [] [65536, 9] []).stack = [] ++ [65536, 9] ∧
      65536 ≤ (65536 : Word).toInt + (0 : Nat) ∧ (engine [] [-1, 9] []).stack = [] ++ [-1, 9] ∧
      (-1 : Word).toInt + (0 : Nat) < 0 := by decide

theorem witness_SqrtHaltsOnUnderflowSignAndRange :
    (engine [] [] []).runState = .running ∧ (engine [] [] []).stack = [] ∧
      (engine [] [-1] []).stack = [] ++ [-1] ∧ (-1 : Word).toInt < 0 ∧
      (engine [] [0] []).stack = [] ++ [0] ∧ 0 ≤ (0 : Word).toInt ∧ 65536 ≤ 65536 := by decide

/-- Every instruction: at most one operand fewer than it pops, and exactly enough. -/
theorem witness_StackUnderflowExactlyWhenOperandsAreMissing :
    (engine [] [] []).runState = .running ∧ (engine [] [] []).haltReason = .none ∧
      (answer (exec (.readMem 0) (engine [] [] []))).map (·.haltReason) = some .stackUnderflow ∧
      (answer (exec (.writeMem 0) (engine [] [] []))).map (·.haltReason) = some .stackUnderflow ∧
      (answer (exec (.writeMem 0) (engine [] [7] []))).map (·.haltReason) = some .stackUnderflow ∧
      (answer (exec (.sqrt 0) (engine [] [] []))).map (·.haltReason) = some .stackUnderflow ∧
      (answer (exec (.loadConst 0) (engine [] [] []))).map (·.haltReason) = some .none ∧
      (answer (exec (.readMem 0) (engine [] [7] []))).map (·.haltReason) = some .none ∧
      (answer (exec (.writeMem 0) (engine [] [7, 7] []))).map (·.haltReason) = some .none ∧
      (answer (exec (.sqrt 0) (engine [] [7] []))).map (·.haltReason) = some .none := by decide

theorem witness_RangeErrorExactlyOutsideDataMemory :
    (engine [] [65535] []).runState = .running ∧ (engine [] [65535] []).haltReason = .none ∧
      (engine [] [65535] []).stack = [] ++ [65535] ∧ (engine [] [65535, 1] []).stack = [] ++ [65535, 1] ∧
      0 ≤ (65535 : Word).toInt ∧
      (answer (exec (.readMem 1) (engine [] [65535] []))).map (·.haltReason) = some .memoryRangeError ∧
      (answer (exec (.writeMem 1) (engine [] [65535, 1] []))).map (·.haltReason) = some .memoryRangeError ∧
      (answer (exec (.sqrt 65536) (engine [] [65535] []))).map (·.haltReason) = some .memoryRangeError := by decide

theorem witness_NegativeRadicandErrorExactlyFromSqrtOfANegative :
    (engine [] [-1] []).runState = .running ∧ (engine [] [-1] []).haltReason = .none ∧
      (answer (exec (.sqrt 0) (engine [] [-1] []))).map (·.haltReason) = some .negativeRadicandError ∧
      (engine [] [2, 0] []).stack = [2] ++ [0] ∧ 65535 < 65536 := by decide

/-- The order's boundary cases: empty stack, smallest negative, zero, first address out of range and last in range. -/
theorem witness_SqrtChecksUnderflowThenSignThenAddress :
    (engine [] [] []).runState = .running ∧ (engine [] [] []).haltReason = .none ∧ (engine [] [] []).stack = [] ∧
      (engine [] [-2147483648] []).stack = [] ++ [-2147483648] ∧ (-2147483648 : Word).toInt < 0 ∧
      (engine [] [0] []).stack = [] ++ [0] ∧ 0 ≤ (0 : Word).toInt ∧ 65536 ≤ 65536 ∧ 65535 < 65536 := by decide

theorem witness_FailedInstructionPreservesMemoryAndPc :
    (engine [] [] [(3, 4)]).runState = .running ∧
      ∃ t, exec (.readMem 0) (engine [] [] [(3, 4)]) = .next t ∧ t.runState = .halted :=
  ⟨rfl, _, rfl, rfl⟩

theorem witness_PcAdvancesOnlyOnSuccessByTheWidth :
    (∃ t, step (State.load [0x80, 0x64]) = .next t ∧ t.runState = .running) ∧
      ∃ t, step (State.load [0xE0, 0x00]) = .next t ∧ t.runState = .halted :=
  ⟨⟨_, eq_next_of_answer (t := { State.load [0x80, 0x64] with stack := [100], pc := 2 }) (by decide), rfl⟩,
    ⟨_, eq_next_of_answer (t := haltWith .stackUnderflow 0 (State.load [0xE0, 0x00])) (by decide), rfl⟩⟩

theorem witness_LoadConstAndReadMemFrame :
    (∃ t, exec (.loadConst 1) (engine [] [] []) = .next t) ∧ (engine [] [0] [(0, 5)]).runState = .running ∧
      ∃ t, exec (.readMem 0) (engine [] [0] [(0, 5)]) = .next t ∧ t.runState = .running :=
  ⟨⟨_, rfl⟩, rfl, _,
    eq_next_of_answer (t := { engine [] [5] [(0, 5)] with pc := 2 }) (by decide), rfl⟩

theorem witness_WriteMemAndSqrtFrame :
    (engine [] [1, 65535, 2] []).runState = .running ∧ (engine [] [1, 65535, 2] []).stack = [1] ++ [65535, 2] ∧
      (∃ t, exec (.writeMem 0) (engine [] [1, 65535, 2] []) = .next t ∧ t.runState = .running) ∧
      (engine [] [1, 16] []).stack = [1] ++ [16] ∧
      ∃ t, exec (.sqrt 50) (engine [] [1, 16] []) = .next t ∧ t.runState = .running :=
  ⟨rfl, rfl,
    ⟨_, eq_next_of_answer (t := { engine [] [1] [(65535, 2)] with pc := 2 }) (by decide), rfl⟩, rfl,
    ⟨_, eq_next_of_answer (t := { engine [] [1] [(50, 4)] with pc := 5 }) (by decide), rfl⟩⟩

theorem witness_OnlyWriteMemAndSqrtMutateAndOnlyReadMemReads :
    (engine [] [5, 6] []).runState = .running ∧
      (∃ t, exec (.writeMem 0) (engine [] [5, 6] []) = .next t ∧ t.mem ≠ (engine [] [5, 6] []).mem) ∧
      ∀ k, Instr.writeMem 0 ≠ .readMem k :=
  ⟨rfl, ⟨_, eq_next_of_answer (t := { engine [] [] [(5, 6)] with pc := 2 }) (by decide), by decide⟩,
    fun _ h => by cases h⟩

theorem witness_NoStepWritesTheProgram :
    ∃ t, step (engine [0x40, 0x00] [5, 6] []) = .next t ∧ t.mem = [(5, 6)] :=
  ⟨_, eq_next_of_answer (t := { engine [0x40, 0x00] [] [(5, 6)] with pc := 2 }) (by decide), rfl⟩

theorem witness_HaltReportIsInvisibleToInstructions :
    (engine [] [] []).runState = .running ∧ ∃ t, exec (.loadConst 1) (engine [] [] []) = .next t :=
  ⟨rfl, _, rfl⟩

theorem witness_DeeperStackElementsAreUntouched :
    (engine [] [5, 6] []).runState = .running ∧ 2 ≤ (engine [] [5, 6] []).stack.length ∧
      ∃ t, exec (.writeMem 0) (engine [] [5, 6] []) = .next t :=
  ⟨rfl, by decide, _, eq_next_of_answer (t := { engine [] [] [(5, 6)] with pc := 2 }) (by decide)⟩

theorem witness_ReadMemReturnsTheStoredWord :
    (engine [] [65530, 9] []).runState = .running ∧ (engine [] [65530, 9] []).mem.wf ∧
      (engine [] [65530, 9] []).stack = [] ++ [65530, 9] ∧
      0 ≤ (65530 : Word).toInt + (5 : Nat) ∧ (65530 : Word).toInt + (5 : Nat) < 65536 ∧
      exec (.writeMem 5) (engine [] [65530, 9] []) = .next { engine [] [] [(65535, 9)] with pc := 2 } ∧
      (engine [] [65535] [(65535, 9)]).stack = [] ++ [65535] ∧
      (65535 : Word).toInt + (0 : Nat) = (65530 : Word).toInt + (5 : Nat) ∧
      (engine [] [81] []).stack = [] ++ [81] ∧ 0 ≤ (81 : Word).toInt ∧
      exec (.sqrt 65535) (engine [] [81] []) = .next { engine [] [] [(65535, 9)] with pc := 5 } ∧
      (65535 : Word).toInt + (0 : Nat) = ((65535 : Nat) : Int) :=
  ⟨rfl, by decide, rfl, by decide, by decide, eq_next_of_answer (by decide), rfl, by decide, rfl, by decide,
    eq_next_of_answer (by decide), by decide⟩

theorem witness_StepKeepsTheStateLegal : (State.load [0x80, 0x64]).Legal ∧
    ∃ t, step (State.load [0x80, 0x64]) = .next t :=
  ⟨⟨by decide, by decide, by decide, by decide, by decide⟩, _,
    eq_next_of_answer (t := { State.load [0x80, 0x64] with stack := [100], pc := 2 }) (by decide)⟩

theorem witness_StepKeepsValuesBounded :
    (State.load [0x9F, 0xFF]).Legal ∧ (State.load [0x9F, 0xFF]).ValuesBounded ∧
      ∃ t, step (State.load [0x9F, 0xFF]) = .next t :=
  ⟨⟨by decide, by decide, by decide, by decide, by decide⟩,
    ⟨fun _ hw => (List.not_mem_nil hw).elim, fun _ => ⟨Int.le_refl 0, show (0 : Int) ≤ 8191 by decide⟩⟩, _,
    eq_next_of_answer (t := { State.load [0x9F, 0xFF] with stack := [8191], pc := 2 }) (by decide)⟩

theorem witness_StackDepthStaysWithinHalfTheProgram :
    (State.load [0x80, 0x64]).DepthBounded ∧
      step (State.load [0x80, 0x64]) = .next { State.load [0x80, 0x64] with stack := [100], pc := 2 } ∧
      Reachable [0x80, 0x64] { State.load [0x80, 0x64] with stack := [100], pc := 2 } :=
  ⟨by unfold State.DepthBounded; decide, eq_next_of_answer (by decide), .step .load (eq_next_of_answer (by decide))⟩

/-- A reachable range error: P3 of 95_test_vectors.md section 3.3. -/
theorem witness_ErrorsThatCannotHappenFromReset :
    ∃ s, Reachable [0x80, 0x04, 0x20, 0x01, 0x00, 0x00, 0x00] s ∧ s.haltReason = .memoryRangeError :=
  ⟨haltWith .memoryRangeError 65536 { State.load [0x80, 0x04, 0x20, 0x01, 0x00, 0x00, 0x00] with pc := 2 },
    .step (.step .load
      (eq_next_of_answer
        (t := { State.load [0x80, 0x04, 0x20, 0x01, 0x00, 0x00, 0x00] with stack := [4], pc := 2 }) (by decide)))
      (eq_next_of_answer (by decide)), rfl⟩

theorem witness_EveryRunHaltsWithinTheStepBound :
    Host.Core.run Sys2Proof.core 0 (State.load []) = .next (State.load []) ∧ (State.load []).runState = .running :=
  ⟨rfl, rfl⟩

theorem witness_RunReturnsTheFinalMemoryAndReport :
    Reachable [] haltedEngine ∧ haltedEngine.runState = .halted :=
  ⟨.step .load rfl, rfl⟩

theorem witness_AssemblyIsAllOrNothing :
    assemblerAccepts (Instr.loadConst 8191).opcode (Instr.loadConst 8191).operand = true ∧
      lookupMnemonic "LoadConst" = some .loadConst ∧ lookupMnemonic "ReadMem" = some .readMem ∧
      lookupMnemonic "WriteMem" = some .writeMem ∧ lookupMnemonic "Sqrt" = some .sqrt ∧
      assemblerAccepts .loadConst 8192 = false ∧ lookupMnemonic "Jump" = none := by decide

theorem witness_SqrtRequestLosesBit29 : 536870912 ≤ 536870912 ∧ 536870912 ≤ 1073741823 ∧ 1073741823 ≤ 1073741823 := by
  decide

/-- A Program of one request, run to its end, and the empty one. -/
theorem witness_AssembledProgramsEndAtTheirEndOrInAnError :
    AssemblerProduced [0x80, 0x64] ∧
      (∃ s, Reachable [0x80, 0x64] s ∧ s.haltReason = .endOfProgram ∧ s.haltPc = 2) ∧
      AssemblerProduced [] ∧ Reachable [] haltedEngine ∧ haltedEngine.haltReason = .endOfProgram :=
  ⟨⟨[⟨"LoadConst", 100⟩], _, rfl, rfl⟩,
    ⟨haltWith .endOfProgram 0 { State.load [0x80, 0x64] with stack := [100], pc := 2 },
      .step (.step .load
        (eq_next_of_answer (t := { State.load [0x80, 0x64] with stack := [100], pc := 2 }) (by decide)))
        (eq_next_of_answer (by decide)), rfl, rfl⟩,
    ⟨[], _, rfl, rfl⟩, .step .load rfl, rfl⟩

/-- Before the `Sqrt` of P3 of 95_test_vectors.md section 3.3, which reports the range error. -/
theorem witness_StepKeepsErrorsOnlyFromFarSqrt :
    let s : State := { State.load [0x20, 0x01, 0x00, 0x00, 0x00] with stack := [4] }
    s.Legal ∧ s.ValuesBounded ∧ s.ErrorsOnlyFromFarSqrt ∧ step s = .next (haltWith .memoryRangeError 65536
      { State.load [0x20, 0x01, 0x00, 0x00, 0x00] with stack := [] }) :=
  ⟨⟨by decide, by decide, by decide, by decide, by decide⟩,
    ⟨fun w hw => by
        obtain rfl : w = 4 := List.mem_singleton.1 hw
        exact ⟨by decide, by decide⟩,
      fun _ => ⟨Int.le_refl 0, show (0 : Int) ≤ 8191 by decide⟩⟩,
    ⟨by decide, fun h => HaltReason.noConfusion h⟩, eq_next_of_answer (by decide)⟩

/-- Two requests, at the boundary between them, under the policy that skips a third. -/
theorem witness_StepStaysOnInstructionBoundaries :
    let s : State := { State.load [0x80, 0x04, 0x20, 0x00, 0x00, 0x32, 0x00] with stack := [4], pc := 2 }
    s.OnEncodingOf [.loadConst 4, .sqrt 50] ∧
      step s = .next { s with stack := [], mem := [(50, 2)], pc := 7 } ∧
      requestedInstrs [⟨"LoadConst", 4⟩, ⟨"Jump", 0⟩, ⟨"Sqrt", 50⟩] = [.loadConst 4, .sqrt 50] ∧
      ∃ a, assemble .skip [⟨"LoadConst", 4⟩, ⟨"Jump", 0⟩, ⟨"Sqrt", 50⟩] = .ok a ∧ a.buffer = s.prog :=
  ⟨⟨by decide, ⟨[.loadConst 4], [.sqrt 50], rfl, by decide⟩, by decide, by decide, fun h => HaltReason.noConfusion h⟩,
    eq_next_of_answer (by decide), rfl, _, rfl, rfl⟩

end Sys2Proof.Machine.Tests
end

/-!
PROOF. What an instruction did when the engine still runs after it: the success case of each inversion lemma, with
the halts excluded. The stack discipline of R15 follows.
-/

namespace Sys2Proof.Machine

variable {s t : State}

/-- The two stack operations of R15 cancel, every other field included. -/
@[simp] theorem pop_push (v : Word) (s : State) : pop (push v s) = some (v, s) :=
  pop_of_concat (push_stack v s)

theorem ne_haltWith_of_running (ht : t.runState = .running) {r : HaltReason} {a : Int} :
    t ≠ haltWith r a s := by
  rintro rfl
  cases ht

theorem execReadMem_next_running {offset : Nat} (h : execReadMem offset s = .next t)
    (ht : t.runState = .running) :
    ∃ xs b, s.stack = xs ++ [b] ∧ 0 ≤ baseOffsetAddress b offset ∧ baseOffsetAddress b offset < 65536 ∧
      t = advance 2 (push (memRead s.mem (baseOffsetAddress b offset).toNat) { s with stack := xs }) := by
  rcases execReadMem_next h with ⟨-, hu⟩ | ⟨xs, b, hs, ⟨h0, h1, hn⟩ | ⟨-, hr⟩⟩
  · exact absurd hu (ne_haltWith_of_running ht)
  · exact ⟨xs, b, hs, h0, h1, hn⟩
  · exact absurd hr (ne_haltWith_of_running ht)

theorem execWriteMem_next_running {offset : Nat} (h : execWriteMem offset s = .next t)
    (ht : t.runState = .running) :
    ∃ xs b v, s.stack = xs ++ [b, v] ∧ 0 ≤ baseOffsetAddress b offset ∧ baseOffsetAddress b offset < 65536 ∧
      t = advance 2 (store (baseOffsetAddress b offset).toNat v { s with stack := xs }) := by
  rcases execWriteMem_next h with ⟨-, hu⟩ | ⟨_, -, hu⟩ | ⟨xs, b, v, hs, ⟨h0, h1, hn⟩ | ⟨-, hr⟩⟩
  · exact absurd hu (ne_haltWith_of_running ht)
  · exact absurd hu (ne_haltWith_of_running ht)
  · exact ⟨xs, b, v, hs, h0, h1, hn⟩
  · exact absurd hr (ne_haltWith_of_running ht)

theorem execSqrt_next_running {address : Nat} (h : execSqrt address s = .next t)
    (ht : t.runState = .running) :
    ∃ xs v, s.stack = xs ++ [v] ∧ 0 ≤ v.toInt ∧ address < 65536 ∧
      t = advance 5 (store address (rootWord v) { s with stack := xs }) := by
  rcases execSqrt_next h with ⟨-, hu⟩ | ⟨xs, v, hs, ⟨-, hn⟩ | ⟨h0, h1, hn⟩ | ⟨-, -, hr⟩⟩
  · exact absurd hu (ne_haltWith_of_running ht)
  · exact absurd hn (ne_haltWith_of_running ht)
  · exact ⟨xs, v, hs, h0, h1, hn⟩
  · exact absurd hr (ne_haltWith_of_running ht)

/-- Settles O3: the operations by their laws, each instruction by the success case of its inversion lemma. -/
theorem pushAppendsAndPopTakesTheTop : Obligations.PushAppendsAndPopTakesTheTop := by
  refine ⟨fun s v => ⟨rfl, pop_push v s⟩, fun _ _ _ => pop_of_concat,
    fun s rest hs => ⟨_, withPop_of_nil hs rest, rfl, rfl, hs⟩, fun i s t _ h ht => ?_⟩
  cases i with
  | loadConst k =>
    obtain rfl := execLoadConst_next h
    exact ⟨constantWord k, rfl⟩
  | readMem offset =>
    obtain ⟨xs, b, hs, -, -, rfl⟩ := execReadMem_next_running h ht
    exact ⟨xs, b, _, hs, rfl⟩
  | writeMem offset =>
    obtain ⟨xs, b, v, hs, -, -, rfl⟩ := execWriteMem_next_running h ht
    exact ⟨b, v, hs⟩
  | sqrt address =>
    obtain ⟨xs, v, hs, -, -, rfl⟩ := execSqrt_next_running h ht
    exact ⟨v, hs⟩

end Sys2Proof.Machine

/-!
PROOF. What an instruction does to its two memories. No step writes Program space (R42); data memory is written only by
`WriteMem` and `Sqrt`, and every instruction but `ReadMem` acts without reading it (R45).
-/

namespace Sys2Proof.Machine

variable {s t : State}

/-! ## Program space is never written -/

theorem exec_prog {i : Instr} (h : exec i s = .next t) : t.prog = s.prog := by
  cases i with
  | loadConst k =>
    obtain rfl := execLoadConst_next h
    rfl
  | readMem offset =>
    rcases execReadMem_next h with ⟨-, rfl⟩ | ⟨_, _, -, ⟨-, -, rfl⟩ | ⟨-, rfl⟩⟩ <;> rfl
  | writeMem offset =>
    rcases execWriteMem_next h with ⟨-, rfl⟩ | ⟨_, -, rfl⟩ | ⟨_, _, _, -, ⟨-, -, rfl⟩ | ⟨-, rfl⟩⟩ <;> rfl
  | sqrt address =>
    rcases execSqrt_next h with ⟨-, rfl⟩ | ⟨_, _, -, ⟨-, rfl⟩ | ⟨-, -, rfl⟩ | ⟨-, -, rfl⟩⟩ <;> rfl

theorem step_prog (h : step s = .next t) : t.prog = s.prog := by
  rcases step_next h with ⟨-, rfl⟩ | ⟨-, i, w, -, hi⟩ | ⟨-, -, rfl⟩ | ⟨-, -, rfl⟩ | ⟨-, -, rfl⟩
  · rfl
  · exact exec_prog hi
  all_goals exact haltWith_prog ..

/-- Settles O41: a step keeps the Program, and `decode` reads nothing of the state but the Program. -/
theorem noStepWritesTheProgram : Obligations.NoStepWritesTheProgram := by
  intro s t h
  have hp := step_prog h
  exact ⟨hp, fun off => by rw [hp]⟩

/-! ## Who writes data memory -/

theorem execReadMem_mem {offset : Nat} (h : execReadMem offset s = .next t) : t.mem = s.mem := by
  rcases execReadMem_next h with ⟨-, rfl⟩ | ⟨_, _, -, ⟨-, -, rfl⟩ | ⟨-, rfl⟩⟩ <;> rfl

/-- A `WriteMem` that changed memory is past its checks: each of its halts keeps memory. -/
theorem execWriteMem_runState_of_mem_ne {offset : Nat} (h : execWriteMem offset s = .next t)
    (hm : t.mem ≠ s.mem) : t.runState = s.runState := by
  rcases execWriteMem_next h with ⟨-, rfl⟩ | ⟨_, -, rfl⟩ | ⟨_, _, _, -, ⟨-, -, rfl⟩ | ⟨-, rfl⟩⟩
  · exact absurd rfl hm
  · exact absurd rfl hm
  · rfl
  · exact absurd rfl hm

/-- A `Sqrt` that changed memory is past its checks: each of its halts keeps memory. -/
theorem execSqrt_runState_of_mem_ne {address : Nat} (h : execSqrt address s = .next t)
    (hm : t.mem ≠ s.mem) : t.runState = s.runState := by
  rcases execSqrt_next h with ⟨-, rfl⟩ | ⟨_, _, -, ⟨-, rfl⟩ | ⟨-, -, rfl⟩ | ⟨-, -, rfl⟩⟩
  · exact absurd rfl hm
  · exact absurd rfl hm
  · rfl
  · exact absurd rfl hm

theorem exec_of_mem_ne {i : Instr} (h : exec i s = .next t) (hm : t.mem ≠ s.mem) :
    t.runState = s.runState ∧ ((∃ k, i = .writeMem k) ∨ ∃ k, i = .sqrt k) := by
  cases i with
  | loadConst k =>
    obtain rfl := execLoadConst_next h
    exact absurd rfl hm
  | readMem offset => exact absurd (execReadMem_mem h) hm
  | writeMem offset => exact ⟨execWriteMem_runState_of_mem_ne h hm, .inl ⟨offset, rfl⟩⟩
  | sqrt address => exact ⟨execSqrt_runState_of_mem_ne h hm, .inr ⟨address, rfl⟩⟩

/-! ## Who reads data memory -/

/-- `f` does not read data memory: started on any other memory `m` it does the same to every other field, and to `m`
the write, if any, that it makes to its own memory. -/
def IgnoresMemory (f : State → Result) : Prop :=
  ∀ (s t : State) (m : Memory), f s = .next t →
    ∃ m', f { s with mem := m } = .next { t with mem := m' } ∧
      ((t.mem = s.mem ∧ m' = m) ∨ ∃ a v, t.mem = memWrite s.mem a v ∧ m' = memWrite m a v)

theorem ignoresMemory_raise (e : ExecError) : IgnoresMemory (raise e) := by
  intro s t m h
  obtain rfl := Host.Outcome.next.inj h
  exact ⟨m, rfl, .inl ⟨rfl, rfl⟩⟩

theorem ignoresMemory_advance_push (w : Nat) (v : Word) :
    IgnoresMemory fun s => .next (advance w (push v s)) := by
  intro s t m h
  obtain rfl := Host.Outcome.next.inj h
  exact ⟨m, rfl, .inl ⟨rfl, rfl⟩⟩

theorem ignoresMemory_advance_store (w a : Nat) (v : Word) :
    IgnoresMemory fun s => .next (advance w (store a v s)) := by
  intro s t m h
  obtain rfl := Host.Outcome.next.inj h
  exact ⟨memWrite m a v, rfl, .inr ⟨a, v, rfl, rfl⟩⟩

/-- A `pop()` takes its operand from the stack, so it ignores memory when the rest of the instruction does. -/
theorem IgnoresMemory.withPop {rest : Word → State → Result} (hrest : ∀ v, IgnoresMemory (rest v)) :
    IgnoresMemory fun s => withPop s rest := by
  intro s t m h
  rcases List.eq_nil_or_concat' s.stack with hs | ⟨xs, v, hs⟩
  · have hs' : { s with mem := m }.stack = [] := hs
    simp only [withPop_of_nil hs, withPop_of_nil hs'] at h ⊢
    exact ignoresMemory_raise .stackUnderflow s t m h
  · have hs' : { s with mem := m }.stack = xs ++ [v] := hs
    simp only [withPop_of_concat hs, withPop_of_concat hs'] at h ⊢
    exact hrest v { s with stack := xs } t m h

/-- A check between two continuations that ignore memory ignores memory, its condition being fixed. -/
theorem IgnoresMemory.ite {c : Prop} [Decidable c] {f g : State → Result} (hf : IgnoresMemory f)
    (hg : IgnoresMemory g) : IgnoresMemory fun s => if c then f s else g s := by
  by_cases hc : c
  · simpa only [if_pos hc] using hf
  · simpa only [if_neg hc] using hg

theorem IgnoresMemory.withDataAddress (address : Int) {rest : Nat → State → Result}
    (hrest : ∀ a, IgnoresMemory (rest a)) :
    IgnoresMemory fun s => withDataAddress address s fun a => rest a s :=
  .ite (hrest _) (ignoresMemory_raise _)

/-- Every instruction but `ReadMem` is built from the forms above, none of which reads memory. -/
theorem exec_ignoresMemory {i : Instr} (hi : ∀ k, i ≠ .readMem k) : IgnoresMemory (exec i) := by
  cases i with
  | loadConst k => exact ignoresMemory_advance_push _ _
  | readMem offset => exact absurd rfl (hi offset)
  | writeMem offset =>
    exact .withPop fun v => .withPop fun b => .withDataAddress _ fun a => ignoresMemory_advance_store _ a v
  | sqrt address =>
    exact .withPop fun v => .ite (ignoresMemory_raise _)
      (.withDataAddress _ fun a => ignoresMemory_advance_store _ a (rootWord v))

/-- Settles O40: a change of memory is a store that succeeded, and no instruction but `ReadMem` reads memory. -/
theorem onlyWriteMemAndSqrtMutateAndOnlyReadMemReads :
    Obligations.OnlyWriteMemAndSqrtMutateAndOnlyReadMemReads := by
  refine ⟨fun i s t hs h hm => ?_, fun i s t m _ hi h => exec_ignoresMemory hi s t m h⟩
  obtain ⟨hrun, hwho⟩ := exec_of_mem_ne h hm
  exact ⟨hrun.trans hs, hwho⟩

end Sys2Proof.Machine

/-!
PROOF. The wire format. What `decode` answers, read off byte 1 as a number: `byte1 / 32` is the opcode ID (R53) and
gives the width (R54); where the Program ends (R59). The bytes of the short encodings as numbers (R51), and the
operands the assembler accepts (R66).
-/

namespace Sys2Proof

/-! ## The opcode ID in byte 1 -/

theorem opcode_id_lt (op : Opcode) : op.id < 8 := by
  cases op <;> decide

theorem opcode_width_pos (op : Opcode) : 0 < op.width := by
  cases op <;> decide

theorem ne_opcode_id {n : Nat} (h : n = 0 ∨ n = 3 ∨ n = 5 ∨ n = 6) (op : Opcode) : n ≠ op.id := by
  rcases h with rfl | rfl | rfl | rfl <;> cases op <;> decide

/-- The field's value, a 3-bit word in `recogniseOpcode_eq_some_iff`, as the quotient of the byte by 32. -/
theorem recogniseOpcode_opcodeField_eq_some_iff (b : Byte) (op : Opcode) :
    recogniseOpcode (opcodeField b) = some op ↔ b.toNat / 32 = op.id := by
  rw [recogniseOpcode_eq_some_iff, ← BitVec.toNat_inj, opcodeField_toNat, BitVec.toNat_ofNat,
    Nat.mod_eq_of_lt (opcode_id_lt op)]

theorem recogniseOpcode_opcodeField_eq_none_iff (b : Byte) :
    recogniseOpcode (opcodeField b) = none ↔ ∀ op : Opcode, b.toNat / 32 ≠ op.id := by
  simp only [Option.eq_none_iff_forall_ne_some, ne_eq, recogniseOpcode_opcodeField_eq_some_iff]

/-! ## What `decode` answers -/

section
variable {prog : List Byte} {off : Nat}

theorem decode_of_opcode_id {op : Opcode} (hid : (prog.getD off 0).toNat / 32 = op.id)
    (hw : off + op.width ≤ prog.length) :
    decode prog off = .instr (op.withOperand (operandAt op prog off)) op.width := by
  have hop : recogniseOpcode (opcodeField (progByte prog off)) = some op :=
    (recogniseOpcode_opcodeField_eq_some_iff _ op).2 hid
  have hpos := opcode_width_pos op
  have hoff : off < prog.length := by omega
  have hfits : ¬ prog.length - off < op.width := by omega
  simp [decode, hoff, hop, hfits]

theorem decode_of_no_opcode_id (hid : ∀ op : Opcode, (prog.getD off 0).toNat / 32 ≠ op.id)
    (hoff : off < prog.length) : decode prog off = .unknownOpcode := by
  have hnone : recogniseOpcode (opcodeField (progByte prog off)) = none :=
    (recogniseOpcode_opcodeField_eq_none_iff _).2 hid
  simp [decode, hoff, hnone]

/-- The converse of `decode_of_opcode_id`: an instruction is only read under its own opcode's ID. -/
theorem opcode_id_of_decode {i : Instr} {w : Nat} (h : decode prog off = .instr i w) :
    ∃ op : Opcode, (prog.getD off 0).toNat / 32 = op.id ∧ w = op.width := by
  rcases decode_cases prog off with ⟨-, hd⟩ | ⟨-, -, hd⟩ | ⟨_, -, -, -, hd⟩ | ⟨op, -, hop, hd⟩
  · cases hd.symm.trans h
  · cases hd.symm.trans h
  · cases hd.symm.trans h
  · cases hd.symm.trans h
    exact ⟨op, (recogniseOpcode_opcodeField_eq_some_iff _ op).1 hop, rfl⟩

theorem decode_eq_endOfProgram_iff : decode prog off = .endOfProgram ↔ prog.length ≤ off := by
  refine ⟨fun h => ?_, fun h => by simp [decode, h]⟩
  rcases decode_cases prog off with ⟨hle, -⟩ | ⟨-, -, hd⟩ | ⟨_, -, -, -, hd⟩ | ⟨_, -, -, hd⟩
  · exact hle
  all_goals cases hd.symm.trans h

end

/-- Settles O6: each range of byte 1 is one value of `byte1 / 32`, an operation's ID or 0, 3, 5 or 6. -/
theorem firstByteSelectsTheInstruction : Obligations.FirstByteSelectsTheInstruction := by
  intro prog off hlen b
  have hshort : off + 2 ≤ prog.length := by omega
  have hunknown (h : b / 32 = 0 ∨ b / 32 = 3 ∨ b / 32 = 5 ∨ b / 32 = 6) :
      decode prog off = .unknownOpcode := decode_of_no_opcode_id (ne_opcode_id h) (by omega)
  have hbyte : b < 256 := (prog.getD off 0).isLt
  exact ⟨fun _ => hunknown (by omega),
    fun _ => ⟨_, decode_of_opcode_id (op := .sqrt) (show b / 32 = 1 by omega) hlen⟩,
    fun _ => ⟨_, decode_of_opcode_id (op := .writeMem) (show b / 32 = 2 by omega) hshort⟩,
    fun _ => hunknown (by omega),
    fun _ => ⟨_, decode_of_opcode_id (op := .loadConst) (show b / 32 = 4 by omega) hshort⟩,
    fun _ => hunknown (by omega), fun _ => hunknown (by omega),
    fun _ => ⟨_, decode_of_opcode_id (op := .readMem) (show b / 32 = 7 by omega) hshort⟩⟩

/-- Settles O7: `decode` answers `EndOfProgram` exactly from the length on (R59, R74). -/
theorem endOfProgramExactlyAtTheBufferLength : Obligations.EndOfProgramExactlyAtTheBufferLength := by
  refine ⟨fun prog off hle => ?_, decode_eq_endOfProgram_iff.2 (Nat.le_refl 0)⟩
  rw [decode_eq_endOfProgram_iff]
  omega

/-- Settles O10: the width is the one of the opcode recognised in byte 1. -/
theorem lengthIsAFunctionOfTheOpcodeId : Obligations.LengthIsAFunctionOfTheOpcodeId := by
  intro prog off i w h id
  obtain ⟨op, hid, hw⟩ := opcode_id_of_decode h
  cases op with
  | sqrt => exact .inl ⟨hid, hw⟩
  | writeMem => exact .inr ⟨.inl hid, hw⟩
  | loadConst => exact .inr ⟨.inr (.inl hid), hw⟩
  | readMem => exact .inr ⟨.inr (.inr hid), hw⟩

/-! ## The bytes of an encoding -/

/-- Byte 1 of either format: the opcode ID above the operand's five highest bits `x`. -/
theorem firstByte_toNat {opcodeId : Nat} (hid : opcodeId < 8) (x : Nat) :
    (BitVec.ofNat 8 ((opcodeId <<< 5) ||| (x &&& 0x1F))).toNat = opcodeId * 32 + x % 32 := by
  have hmask : x &&& 0x1F = x % 32 := Nat.and_two_pow_sub_one_eq_mod x 5
  have hlow : x % 32 < 2 ^ 5 := Nat.mod_lt x (by decide)
  rw [hmask, ← Nat.shiftLeft_add_eq_or_of_lt hlow, Nat.shiftLeft_eq, BitVec.toNat_ofNat]
  omega

/-- Every later byte of either format: the low eight bits of the operand, shifted, masked. -/
theorem maskedByte_toNat (x : Nat) : (BitVec.ofNat 8 (x &&& 0xFF)).toNat = x % 256 := by
  have hmask : x &&& 0xFF = x % 256 := Nat.and_two_pow_sub_one_eq_mod x 8
  rw [hmask, BitVec.toNat_ofNat, Nat.mod_mod]

theorem encodeShort_toNat {opcodeId : Nat} (hid : opcodeId < 8) (operand : Nat) :
    (encodeShort opcodeId operand).map BitVec.toNat =
      [opcodeId * 32 + operand / 256 % 32, operand % 256] := by
  simp only [encodeShort, List.map, firstByte_toNat hid, maskedByte_toNat, Nat.shiftRight_eq_div_pow,
    Nat.reducePow]

/-- Settles O13: the three short instructions are `encodeShort` of their opcode IDs. -/
theorem shortEncodingPlacesTheFields : Obligations.ShortEncodingPlacesTheFields := fun k =>
  ⟨encodeShort_toNat (by decide) k, encodeShort_toNat (by decide) k, encodeShort_toNat (by decide) k⟩

/-! ## The assembler's range check -/

theorem assemblerAccepts_iff (op : Opcode) (n : Int) :
    assemblerAccepts op n = true ↔ 0 ≤ n ∧ n ≤ op.assemblerMax := by
  simp [assemblerAccepts]

/-- One request with a known mnemonic is assembled exactly when its operand is in the operation's range: the policy
on unknown mnemonics has no part in it. -/
theorem assemble_singleton_ok_iff {name : String} {op : Opcode} (hname : lookupMnemonic name = some op)
    (policy : Config.UnknownMnemonicPolicy) (n : Int) :
    (∃ a, assemble policy [⟨name, n⟩] = .ok a) ↔ 0 ≤ n ∧ n ≤ op.assemblerMax := by
  rw [← assemblerAccepts_iff]
  by_cases hok : assemblerAccepts op n = true <;> simp [assemble, assembleFrom, hname, hok]

/-- Settles O54: the four mnemonics are known, and each range is its operation's. -/
theorem assemblerEnforcesTheOperandRanges : Obligations.AssemblerEnforcesTheOperandRanges := fun policy n =>
  ⟨assemble_singleton_ok_iff (op := .loadConst) (by decide) policy n,
    assemble_singleton_ok_iff (op := .readMem) (by decide) policy n,
    assemble_singleton_ok_iff (op := .writeMem) (by decide) policy n,
    assemble_singleton_ok_iff (op := .sqrt) (by decide) policy n⟩

end Sys2Proof

/-!
PROOF. The engine's two states (40_engine_fsm.md). The equations of a step in `RUNNING` (R82); the one form of every
halt an instruction makes, an execution error raised on the state whose stack alone may have changed (R85, R144); and
where `pc` goes (R86).
-/

namespace Sys2Proof.Machine

variable {s t : State}

/-! ## A step in `RUNNING` -/

theorem step_of_instr {i : Instr} {w : Nat} (hs : s.runState = .running)
    (hd : decode s.prog s.pc = .instr i w) : step s = exec i s := by
  simp only [step, hs, hd]

theorem step_of_endOfProgram (hs : s.runState = .running) (hd : decode s.prog s.pc = .endOfProgram) :
    step s = .next (haltWith .endOfProgram 0 s) := by
  simp only [step, hs, hd, cleanHalt_eq]

theorem step_of_truncated (hs : s.runState = .running) (hd : decode s.prog s.pc = .truncated) :
    step s = .next (haltWith .truncated 0 s) := by
  simp only [step, hs, hd, cleanHalt_eq]

theorem step_of_unknownOpcode (hs : s.runState = .running) (hd : decode s.prog s.pc = .unknownOpcode) :
    step s = .next (haltWith .unknownOpcode 0 s) := by
  simp only [step, hs, hd, cleanHalt_eq]

/-- Settles O19: the equations of a step in `RUNNING`; none of the three clean causes is an error. -/
theorem stepRunsTheDecodedInstructionOrHaltsCleanly :
    Obligations.StepRunsTheDecodedInstructionOrHaltsCleanly := by
  refine fun s hs => ⟨fun i w => step_of_instr hs, ?_⟩
  rintro (hd | hd | hd)
  · exact ⟨_, step_of_endOfProgram hs hd, rfl, rfl⟩
  · exact ⟨_, step_of_truncated hs hd, rfl, rfl⟩
  · exact ⟨_, step_of_unknownOpcode hs hd, rfl, rfl⟩

/-! ## An instruction that halts -/

theorem ne_halted_of_running (hs : s.runState = .running) : s.runState ≠ .halted := by
  simp [hs]

/-- A halt inside an instruction is an execution error raised after pops alone: what it was raised on differs from
the state before the instruction in the stack only. -/
theorem exec_next_halted {i : Instr} (hs : s.runState = .running) (h : exec i s = .next t)
    (ht : t.runState = .halted) :
    ∃ (e : ExecError) (xs : List Word), t = haltWith e.reason e.address { s with stack := xs } := by
  have hrun : s.runState ≠ .halted := ne_halted_of_running hs
  cases i with
  | loadConst k =>
    obtain rfl := execLoadConst_next h
    exact absurd ht hrun
  | readMem offset =>
    rcases execReadMem_next h with ⟨-, rfl⟩ | ⟨xs, b, -, ⟨-, -, rfl⟩ | ⟨-, rfl⟩⟩
    · exact ⟨.stackUnderflow, s.stack, rfl⟩
    · exact absurd ht hrun
    · exact ⟨.memoryRangeError (baseOffsetAddress b offset), xs, rfl⟩
  | writeMem offset =>
    rcases execWriteMem_next h with ⟨-, rfl⟩ | ⟨_, -, rfl⟩ | ⟨xs, b, _, -, ⟨-, -, rfl⟩ | ⟨-, rfl⟩⟩
    · exact ⟨.stackUnderflow, s.stack, rfl⟩
    · exact ⟨.stackUnderflow, [], rfl⟩
    · exact absurd ht hrun
    · exact ⟨.memoryRangeError (baseOffsetAddress b offset), xs, rfl⟩
  | sqrt address =>
    rcases execSqrt_next h with ⟨-, rfl⟩ | ⟨xs, _, -, ⟨-, rfl⟩ | ⟨-, -, rfl⟩ | ⟨-, -, rfl⟩⟩
    · exact ⟨.stackUnderflow, s.stack, rfl⟩
    · exact ⟨.negativeRadicandError, xs, rfl⟩
    · exact absurd ht hrun
    · exact ⟨.memoryRangeError address, xs, rfl⟩

/-- Settles O36: a halt entry reports the cause and `pc`, and keeps what it was raised on. -/
theorem failedInstructionPreservesMemoryAndPc : Obligations.FailedInstructionPreservesMemoryAndPc := by
  intro i s t hs h ht
  obtain ⟨e, xs, rfl⟩ := exec_next_halted hs h ht
  exact ⟨e.reason_isError, rfl, rfl, rfl, rfl⟩

/-! ## Where `pc` goes -/

theorem exec_pc_of_running {i : Instr} (h : exec i s = .next t) (ht : t.runState = .running) :
    t.pc = s.pc + i.width := by
  cases i with
  | loadConst k =>
    obtain rfl := execLoadConst_next h
    rfl
  | readMem offset =>
    obtain ⟨_, _, -, -, -, rfl⟩ := execReadMem_next_running h ht
    rfl
  | writeMem offset =>
    obtain ⟨_, _, _, -, -, -, rfl⟩ := execWriteMem_next_running h ht
    rfl
  | sqrt address =>
    obtain ⟨_, _, -, -, -, rfl⟩ := execSqrt_next_running h ht
    rfl

theorem exec_pc_of_halted {i : Instr} (hs : s.runState = .running) (h : exec i s = .next t)
    (ht : t.runState = .halted) : t.pc = s.pc := by
  obtain ⟨_, _, rfl⟩ := exec_next_halted hs h ht
  rfl

/-- A step from `RUNNING` to `RUNNING` executed an instruction: every other step from there is a halt entry. -/
theorem step_next_running (hs : s.runState = .running) (h : step s = .next t) (ht : t.runState = .running) :
    ∃ i w, decode s.prog s.pc = .instr i w ∧ exec i s = .next t := by
  rcases step_next h with ⟨hh, -⟩ | ⟨-, hexec⟩ | ⟨-, -, hc⟩ | ⟨-, -, hc⟩ | ⟨-, -, hc⟩
  · exact absurd hh (ne_halted_of_running hs)
  · exact hexec
  all_goals exact absurd hc (ne_haltWith_of_running ht)

theorem step_pc_of_halted (hs : s.runState = .running) (h : step s = .next t) (ht : t.runState = .halted) :
    t.pc = s.pc := by
  rcases step_next h with ⟨-, rfl⟩ | ⟨-, i, w, -, hi⟩ | ⟨-, -, rfl⟩ | ⟨-, -, rfl⟩ | ⟨-, -, rfl⟩
  · rfl
  · exact exec_pc_of_halted hs hi ht
  all_goals exact haltWith_pc ..

/-- Settles O37: on success `pc` moves by the width of the instruction, which is 2 or 5; a halt leaves it. -/
theorem pcAdvancesOnlyOnSuccessByTheWidth : Obligations.PcAdvancesOnlyOnSuccessByTheWidth := by
  refine fun s t hs h => ⟨fun ht => ?_, step_pc_of_halted hs h⟩
  obtain ⟨i, w, hd, hi⟩ := step_next_running hs h ht
  have hpc : t.pc = s.pc + i.width := exec_pc_of_running hi ht
  refine ⟨i, w, hd, hi, ?_⟩
  cases i <;> exact hpc

end Sys2Proof.Machine

/-!
PROOF. `LoadConst` (41_loadconst.md): the word its constant becomes, and its one effect.
-/

namespace Sys2Proof.Machine

/-- The constant is zero-extended: below the sign bit it is read back as itself, never as a negative integer. -/
theorem constantWord_toInt {k : Nat} (hk : 2 * k < 2 ^ 32) : (constantWord k).toInt = k := by
  have hword : (constantWord k).toNat = k := Nat.mod_eq_of_lt (by omega)
  rw [BitVec.toInt_eq_toNat_of_lt (by omega), hword]

theorem exec_loadConst (k : Nat) (s : State) :
    exec (.loadConst k) s = .next (advance 2 (push (constantWord k) s)) := rfl

/-- Settles O24: byte 1 holds the whole of `k / 256`, which is at most 31, so the bytes are those of the general short
layout; the word pushed is `constantWord k`. -/
theorem loadConstPushesTheConstant : Obligations.LoadConstPushesTheConstant := by
  intro k s hk _
  have hhigh : k / 256 % 32 = k / 256 := Nat.mod_eq_of_lt (by omega)
  have hbytes : (encode (.loadConst k)).map BitVec.toNat = [4 * 32 + k / 256 % 32, k % 256] :=
    encodeShort_toNat (by decide) k
  have haccepts : assemblerAccepts .loadConst k = true :=
    (assemblerAccepts_iff .loadConst k).2 ⟨Int.natCast_nonneg k, Int.ofNat_le.2 hk⟩
  rw [hhigh] at hbytes
  exact ⟨hbytes, haccepts, constantWord k, constantWord_toInt (by omega), exec_loadConst k s⟩

end Sys2Proof.Machine

/-!
PROOF. `Sqrt` (43_sqrt.md): its equation for each outcome of its checks, in the order of R122. Each equation assumes
the checks before its own passed, and nothing about the later ones.
-/

namespace Sys2Proof.Machine

variable {s : State} {xs : List Word} {v : Word}

theorem exec_sqrt_of_nil (hs : s.stack = []) (address : Nat) :
    exec (.sqrt address) s = .next (haltWith .stackUnderflow 0 s) :=
  withPop_of_nil hs _

theorem exec_sqrt_of_negative (hs : s.stack = xs ++ [v]) (hv : v.toInt < 0) (address : Nat) :
    exec (.sqrt address) s = .next (haltWith .negativeRadicandError 0 { s with stack := xs }) :=
  (withPop_of_concat hs _).trans (if_pos ((radicandNegative_iff v).2 hv))

/-- Past the first two checks, what is left is the check of the literal address (R123) and the store. -/
theorem exec_sqrt_of_nonneg (hs : s.stack = xs ++ [v]) (hv : 0 ≤ v.toInt) (address : Nat) :
    exec (.sqrt address) s = withDataAddress address { s with stack := xs } fun a =>
      .next (advance 5 (store a (rootWord v) { s with stack := xs })) :=
  (withPop_of_concat hs _).trans (if_neg fun h => absurd ((radicandNegative_iff v).1 h) hv.not_gt)

theorem exec_sqrt_of_far {address : Nat} (hs : s.stack = xs ++ [v]) (hv : 0 ≤ v.toInt)
    (ha : 65536 ≤ address) :
    exec (.sqrt address) s = .next (haltWith .memoryRangeError address { s with stack := xs }) := by
  rw [exec_sqrt_of_nonneg hs hv, withDataAddress_of_not_mem (by omega)]

theorem exec_sqrt_of_near {address : Nat} (hs : s.stack = xs ++ [v]) (hv : 0 ≤ v.toInt)
    (ha : address < 65536) :
    exec (.sqrt address) s =
      .next (advance 5 (store address (rootWord v) { s with stack := xs })) := by
  rw [exec_sqrt_of_nonneg hs hv, withDataAddress_of_mem (by omega), Int.toNat_natCast]

/-- The four equations leave no state out. -/
theorem exec_sqrt_answers (address : Nat) (s : State) : ∃ t, exec (.sqrt address) s = .next t := by
  rcases List.eq_nil_or_concat' s.stack with hs | ⟨xs, v, hs⟩
  · exact ⟨_, exec_sqrt_of_nil hs address⟩
  rcases lt_or_ge v.toInt 0 with hv | hv
  · exact ⟨_, exec_sqrt_of_negative hs hv address⟩
  rcases lt_or_ge address 65536 with ha | ha
  · exact ⟨_, exec_sqrt_of_near hs hv ha⟩
  · exact ⟨_, exec_sqrt_of_far hs hv ha⟩

/-- Settles O35: in each case the equation of `Sqrt` for it says what the one answer is. A success keeps the report, so
only there is the report before the instruction needed. -/
theorem sqrtChecksUnderflowThenSignThenAddress : Obligations.SqrtChecksUnderflowThenSignThenAddress := by
  intro address s _ hreason
  obtain ⟨t, ht⟩ := exec_sqrt_answers address s
  have answer_eq {u : State} (hu : exec (.sqrt address) s = .next u) : t = u :=
    Host.Outcome.next.inj (ht.symm.trans hu)
  refine ⟨t, ht, fun hs => ?_, fun xs v hs => ⟨fun hv => ?_, fun hv ha => ?_, fun hv ha => ?_⟩⟩
  · obtain rfl := answer_eq (exec_sqrt_of_nil hs address)
    exact ⟨rfl, rfl⟩
  · obtain rfl := answer_eq (exec_sqrt_of_negative hs hv address)
    exact ⟨rfl, rfl⟩
  · obtain rfl := answer_eq (exec_sqrt_of_far hs hv ha)
    exact ⟨rfl, rfl⟩
  · obtain rfl := answer_eq (exec_sqrt_of_near hs hv ha)
    exact ⟨hreason, rfl⟩

end Sys2Proof.Machine

/-!
PROOF. Every halt is reported (60_exceptions.md, R146): the cause a step into `HALTED` writes, and the invariant along
every run that it gives.
-/

namespace Sys2Proof.Machine

variable {s t : State}

/-- A halt is an execution error of the instruction or one of the three clean halts, and each of them names its
cause. -/
theorem step_haltReason_ne_none (hs : s.runState = .running) (h : step s = .next t)
    (ht : t.runState = .halted) : t.haltReason ≠ .none := by
  rcases step_next h with ⟨hh, -⟩ | ⟨-, i, w, -, hi⟩ | ⟨-, -, rfl⟩ | ⟨-, -, rfl⟩ | ⟨-, -, rfl⟩
  · exact absurd hh (ne_halted_of_running hs)
  · obtain ⟨e, xs, rfl⟩ := exec_next_halted hs hi ht
    exact HaltReason.isError_ne_none e.reason_isError
  all_goals exact HaltReason.noConfusion

/-- The run begins in `RUNNING`; a step into `HALTED` writes the cause, and a halted engine keeps it. -/
theorem Reachable.haltReason_ne_none {prog : List Byte} (hr : Reachable prog s) (hs : s.runState = .halted) :
    s.haltReason ≠ .none := by
  induction hr with
  | load => exact RunState.noConfusion hs
  | @step s t _ h ih =>
    cases hrun : s.runState with
    | running => exact step_haltReason_ne_none hrun h hs
    | halted =>
      obtain rfl : s = t := Host.Outcome.next.inj ((step_of_halted hrun).symm.trans h)
      exact ih hrun

/-- Settles O22: the cause written by the step into `HALTED` is on the report of every halted state of a run. -/
theorem everyHaltIsReported : Obligations.EveryHaltIsReported :=
  ⟨fun _ _ => step_haltReason_ne_none, fun _ _ hr ⟨hs, hnone⟩ => hr.haltReason_ne_none hs hnone⟩

end Sys2Proof.Machine

/-!
PROOF. The wire format, both ways (30_encoding.md R51, R52, R71). `decode` answers the field its bytes hold, wherever
they stand (R34, R43); the encoder's bytes hold the operand modulo the field (R72), and bytes with the opcode's ID are
the encoder's bytes for what they decode to. When `decode` answers neither an instruction nor the end (R60 to R62).
-/

namespace Sys2Proof

/-! ## The fields as numbers -/

/-- One more than the largest operand the wire format of an operation carries. -/
def Opcode.operandBound : Opcode → Nat
  | .sqrt => Config.longOperandBound
  | .writeMem => Config.shortOperandBound
  | .loadConst => Config.shortOperandBound
  | .readMem => Config.shortOperandBound

theorem wellFormed_iff (i : Instr) : i.wellFormed = true ↔ i.operand < i.opcode.operandBound := by
  cases i <;> exact decide_eq_true_iff

/-- Appending a byte on the right is the next digit to base 256. -/
theorem append_byte_toNat {n : Nat} (x : BitVec n) (b : Byte) : (x ++ b).toNat = x.toNat * 256 + b.toNat := by
  rw [BitVec.toNat_append, ← Nat.shiftLeft_add_eq_or_of_lt b.isLt, Nat.shiftLeft_eq]

theorem shortOperand_toNat (b1 b2 : Byte) :
    (shortOperand b1 b2).toNat = b1.toNat % 32 * 256 + b2.toNat := by
  rw [shortOperand, append_byte_toNat, operandHigh_toNat]

theorem longOperand_toNat (b1 b2 b3 b4 : Byte) :
    (longOperand b1 b2 b3 b4).toNat =
      b1.toNat % 32 * 16777216 + b2.toNat * 65536 + b3.toNat * 256 + b4.toNat := by
  rw [longOperand, append_byte_toNat, append_byte_toNat, append_byte_toNat, operandHigh_toNat]
  omega

theorem operandAt_of_ne_sqrt {op : Opcode} (hop : op ≠ .sqrt) (prog : List Byte) (off : Nat) :
    operandAt op prog off = (shortOperand (progByte prog off) (progByte prog (off + 1))).toNat := by
  cases op with
  | sqrt => exact absurd rfl hop
  | writeMem | loadConst | readMem => rfl

theorem operandAt_lt (op : Opcode) (prog : List Byte) (off : Nat) :
    operandAt op prog off < op.operandBound := by
  cases op <;> exact BitVec.isLt _

/-! ## What `decode` answers on the bytes of each format -/

section
variable {prog : List Byte} {off : Nat}

theorem decode_of_short_opcode_id {op : Opcode} (hop : op ≠ .sqrt)
    (hid : (prog.getD off 0).toNat / 32 = op.id) (hw : off + 2 ≤ prog.length) :
    decode prog off =
      .instr (op.withOperand ((prog.getD off 0).toNat % 32 * 256 + (prog.getD (off + 1) 0).toNat)) 2 := by
  have hwidth : op.width = 2 := by rw [opcode_width_cases, if_neg hop]
  rw [decode_of_opcode_id hid (hwidth ▸ hw), operandAt_of_ne_sqrt hop, shortOperand_toNat, hwidth]
  rfl

theorem decode_of_sqrt_opcode_id (hid : (prog.getD off 0).toNat / 32 = 1) (hw : off + 5 ≤ prog.length) :
    decode prog off =
      .instr (.sqrt ((prog.getD off 0).toNat % 32 * 16777216 + (prog.getD (off + 1) 0).toNat * 65536 +
        (prog.getD (off + 2) 0).toNat * 256 + (prog.getD (off + 3) 0).toNat)) 5 := by
  rw [decode_of_opcode_id (op := .sqrt) hid hw, operandAt, longOperand_toNat]
  rfl

/-- What an answered instruction was read under: its opcode's ID in byte 1, and all its bytes. -/
theorem decode_eq_instr {i : Instr} {w : Nat} (h : decode prog off = .instr i w) :
    (prog.getD off 0).toNat / 32 = i.opcode.id ∧ w = i.width ∧ off + w ≤ prog.length ∧
      i.operand = operandAt i.opcode prog off := by
  rcases decode_cases prog off with ⟨-, hd⟩ | ⟨-, -, hd⟩ | ⟨_, -, -, -, hd⟩ | ⟨op, hw, hop, hd⟩
  · cases hd.symm.trans h
  · cases hd.symm.trans h
  · cases hd.symm.trans h
  · cases hd.symm.trans h
    rw [withOperand_opcode, withOperand_width, withOperand_operand]
    exact ⟨(recogniseOpcode_opcodeField_eq_some_iff _ op).1 hop, rfl, hw, rfl⟩

theorem wellFormed_of_decode {i : Instr} {w : Nat} (h : decode prog off = .instr i w) :
    i.wellFormed = true := by
  obtain ⟨-, -, -, hoperand⟩ := decode_eq_instr h
  rw [wellFormed_iff, hoperand]
  exact operandAt_lt _ _ _

theorem decode_eq_unknownOpcode_iff :
    decode prog off = .unknownOpcode ↔
      off < prog.length ∧ ∀ op : Opcode, (prog.getD off 0).toNat / 32 ≠ op.id := by
  refine ⟨fun h => ?_, fun ⟨hoff, hid⟩ => decode_of_no_opcode_id hid hoff⟩
  rcases decode_cases prog off with ⟨-, hd⟩ | ⟨hoff, hnone, -⟩ | ⟨_, -, -, -, hd⟩ | ⟨_, -, -, hd⟩
  · cases hd.symm.trans h
  · exact ⟨hoff, (recogniseOpcode_opcodeField_eq_none_iff _).1 hnone⟩
  all_goals cases hd.symm.trans h

theorem decode_eq_truncated_iff :
    decode prog off = .truncated ↔
      ∃ op : Opcode, off < prog.length ∧ (prog.getD off 0).toNat / 32 = op.id ∧
        prog.length - off < op.width := by
  constructor
  · intro h
    rcases decode_cases prog off with ⟨-, hd⟩ | ⟨-, -, hd⟩ | ⟨op, hoff, hop, hw, -⟩ | ⟨_, -, -, hd⟩
    · cases hd.symm.trans h
    · cases hd.symm.trans h
    · exact ⟨op, hoff, (recogniseOpcode_opcodeField_eq_some_iff _ op).1 hop, hw⟩
    · cases hd.symm.trans h
  · rintro ⟨op, hoff, hid, hw⟩
    have hop : recogniseOpcode (opcodeField (progByte prog off)) = some op :=
      (recogniseOpcode_opcodeField_eq_some_iff _ op).2 hid
    simp [decode, hoff, hop, hw]

end

/-- The opcode IDs that select nothing are the other four of the eight. -/
theorem forall_ne_opcode_id_iff {n : Nat} (hn : n < 8) :
    (∀ op : Opcode, n ≠ op.id) ↔ n = 0 ∨ n = 3 ∨ n = 5 ∨ n = 6 := by
  refine ⟨fun h => ?_, ne_opcode_id⟩
  have h1 : n ≠ 1 := h .sqrt
  have h2 : n ≠ 2 := h .writeMem
  have h4 : n ≠ 4 := h .loadConst
  have h7 : n ≠ 7 := h .readMem
  omega

/-- Settles O8: no opcode's ID stands in byte 1; past the end nothing is looked at. -/
theorem unknownOpcodeBeforeTruncationAndEndPastTheEnd :
    Obligations.UnknownOpcodeBeforeTruncationAndEndPastTheEnd := by
  refine ⟨fun prog off hoff => ?_, fun prog off hoff => decode_eq_endOfProgram_iff.2 hoff.le⟩
  intro id
  have hbyte : (prog.getD off 0).toNat < 256 := (prog.getD off 0).isLt
  have hid : id < 8 := by omega
  rw [decode_eq_unknownOpcode_iff, ← forall_ne_opcode_id_iff hid]
  exact and_iff_right hoff

/-- Settles O9: the ID in byte 1 selects an operation whose width exceeds what remains. -/
theorem truncatedExactlyWhenBytesAreMissing : Obligations.TruncatedExactlyWhenBytesAreMissing := by
  refine ⟨fun prog off hoff => ?_, fun s hs hd => ⟨_, Machine.step_of_truncated hs hd, rfl, rfl, rfl⟩⟩
  intro id remaining
  have hrem : remaining = prog.length - off := rfl
  have hone (hw : remaining < 2) : remaining = 1 := by omega
  rw [decode_eq_truncated_iff]
  constructor
  · rintro ⟨op, -, hid, hw⟩
    cases op with
    | sqrt => exact .inr ⟨hid, Nat.le_of_lt_succ hw⟩
    | writeMem => exact .inl ⟨.inl hid, hone hw⟩
    | loadConst => exact .inl ⟨.inr (.inl hid), hone hw⟩
    | readMem => exact .inl ⟨.inr (.inr hid), hone hw⟩
  · rintro (⟨hid | hid | hid, hr⟩ | ⟨hid, hr⟩)
    · exact ⟨.writeMem, hoff, hid, Nat.lt_succ_of_le hr.le⟩
    · exact ⟨.loadConst, hoff, hid, Nat.lt_succ_of_le hr.le⟩
    · exact ⟨.readMem, hoff, hid, Nat.lt_succ_of_le hr.le⟩
    · exact ⟨.sqrt, hoff, hid, Nat.lt_succ_of_le hr⟩

/-- Settles O11: the three short operations read one field. -/
theorem shortOperandIsTheThirteenBitField : Obligations.ShortOperandIsTheThirteenBitField := by
  intro prog off hlen b1 b2 k
  have hb2 : b2 < 256 := (prog.getD (off + 1) 0).isLt
  exact ⟨by omega, fun hid => decode_of_short_opcode_id (op := .writeMem) nofun hid hlen,
    fun hid => decode_of_short_opcode_id (op := .loadConst) nofun hid hlen,
    fun hid => decode_of_short_opcode_id (op := .readMem) nofun hid hlen⟩

/-- Settles O12: four digits to base 256, the first below 32. -/
theorem longOperandIsTheTwentyNineBitField : Obligations.LongOperandIsTheTwentyNineBitField := by
  intro prog off hlen b1 b2 b3 b4 k
  have hb2 : b2 < 256 := (prog.getD (off + 1) 0).isLt
  have hb3 : b3 < 256 := (prog.getD (off + 2) 0).isLt
  have hb4 : b4 < 256 := (prog.getD (off + 3) 0).isLt
  exact ⟨by omega, fun hid => decode_of_sqrt_opcode_id hid hlen⟩

/-! ## Decoding behind other bytes -/

section
variable (before rest : List Byte) (off : Nat)

theorem progByte_append_right : progByte (before ++ rest) (before.length + off) = progByte rest off := by
  rw [progByte, List.getD_append_right _ _ _ _ (Nat.le_add_right _ _), Nat.add_sub_cancel_left, progByte]

theorem operandAt_append_right (op : Opcode) :
    operandAt op (before ++ rest) (before.length + off) = operandAt op rest off := by
  cases op <;> simp only [operandAt, Nat.add_assoc, progByte_append_right]

theorem decode_append_right : decode (before ++ rest) (before.length + off) = decode rest off := by
  simp only [decode, List.length_append, Nat.add_le_add_iff_left, Nat.add_sub_add_left,
    progByte_append_right, operandAt_append_right]

end

/-- Settles O17: the length and each byte are read relative to what stands before. -/
theorem decodingDoesNotDependOnAlignment : Obligations.DecodingDoesNotDependOnAlignment :=
  decode_append_right

/-! ## Decoding an encoding -/

theorem encodeLong_toNat {opcodeId : Nat} (hid : opcodeId < 8) (operand : Nat) :
    (encodeLong opcodeId operand).map BitVec.toNat =
      [opcodeId * 32 + operand / 16777216 % 32, operand / 65536 % 256, operand / 256 % 256, operand % 256, 0] := by
  simp only [encodeLong, List.map, firstByte_toNat hid, maskedByte_toNat, Nat.shiftRight_eq_div_pow,
    Nat.reducePow]
  rfl

/-- What the wire keeps of an instruction: the operand modulo its field. -/
def Instr.onWire (i : Instr) : Instr := i.opcode.withOperand (i.operand % i.opcode.operandBound)

theorem onWire_width (i : Instr) : i.onWire.width = i.width := withOperand_width ..

theorem onWire_of_wellFormed {i : Instr} (hi : i.wellFormed = true) : i.onWire = i := by
  rw [Instr.onWire, Nat.mod_eq_of_lt ((wellFormed_iff i).1 hi), opcode_withOperand]

theorem encode_length (i : Instr) : (encode i).length = i.width := by
  cases i <;> rfl

theorem decode_encodeShort_append {op : Opcode} (hop : op ≠ .sqrt) (k : Nat) (after : List Byte) :
    decode (encodeShort op.id k ++ after) 0 = .instr (op.withOperand (k % 8192)) 2 := by
  have hbytes := encodeShort_toNat (opcode_id_lt op) k
  simp only [encodeShort, List.map, List.cons.injEq, and_true] at hbytes
  obtain ⟨hb1, hb2⟩ := hbytes
  rw [decode_of_short_opcode_id hop (by simp only [encodeShort, List.cons_append, List.getD_cons_zero]; omega)
    (by simp [encodeShort])]
  simp only [encodeShort, List.cons_append, List.getD_cons_zero, List.getD_cons_succ, zero_add, hb1, hb2]
  congr 2
  omega

/-- The first four bytes of a `Sqrt` decide, whatever stands in the pad and after it. -/
theorem decode_encodeLong_bytes {b1 b2 b3 b4 : Byte} {k : Nat} (hb1 : b1.toNat = 1 * 32 + k / 16777216 % 32)
    (hb2 : b2.toNat = k / 65536 % 256) (hb3 : b3.toNat = k / 256 % 256) (hb4 : b4.toNat = k % 256)
    (pad : Byte) (after : List Byte) :
    decode (b1 :: b2 :: b3 :: b4 :: pad :: after) 0 = .instr (.sqrt (k % 536870912)) 5 := by
  rw [decode_of_sqrt_opcode_id (by rw [List.getD_cons_zero]; omega) (by simp)]
  simp only [List.getD_cons_zero, List.getD_cons_succ, zero_add, hb1, hb2, hb3, hb4]
  congr 2
  omega

/-- The five bytes of `Sqrt`, named, with the number each is. -/
theorem encode_sqrt_bytes (k : Nat) : ∃ b1 b2 b3 b4 : Byte,
    encode (.sqrt k) = [b1, b2, b3, b4, 0] ∧ b1.toNat = 1 * 32 + k / 16777216 % 32 ∧
      b2.toNat = k / 65536 % 256 ∧ b3.toNat = k / 256 % 256 ∧ b4.toNat = k % 256 := by
  have hbytes := encodeLong_toNat (opcodeId := 1) (by decide) k
  simp only [encodeLong, List.map, List.cons.injEq, and_true] at hbytes
  obtain ⟨hb1, hb2, hb3, hb4, -⟩ := hbytes
  exact ⟨_, _, _, _, rfl, hb1, hb2, hb3, hb4⟩

/-- Settles O14: the bytes of `encodeLong`, and the decoding of the first four. -/
theorem longEncodingPlacesTheFields : Obligations.LongEncodingPlacesTheFields := by
  intro k
  obtain ⟨b1, b2, b3, b4, henc, hb1, hb2, hb3, hb4⟩ := encode_sqrt_bytes k
  exact ⟨b1, b2, b3, b4, henc, hb1, hb2, hb3, hb4,
    fun pad => decode_encodeLong_bytes hb1 hb2 hb3 hb4 pad []⟩

/-- Decoding an encoding, of any instruction: what is left of it is what its field holds. -/
theorem decode_encode_append (i : Instr) (after : List Byte) :
    decode (encode i ++ after) 0 = .instr i.onWire i.width := by
  cases i with
  | sqrt address =>
    obtain ⟨b1, b2, b3, b4, henc, hb1, hb2, hb3, hb4⟩ := encode_sqrt_bytes address
    rw [henc]
    exact decode_encodeLong_bytes hb1 hb2 hb3 hb4 0 after
  | writeMem offset => exact decode_encodeShort_append (op := .writeMem) nofun offset after
  | loadConst k => exact decode_encodeShort_append (op := .loadConst) nofun k after
  | readMem offset => exact decode_encodeShort_append (op := .readMem) nofun offset after

theorem decode_append_encode_append (i : Instr) (before after : List Byte) :
    decode (before ++ encode i ++ after) before.length = .instr i.onWire i.width := by
  rw [List.append_assoc]
  exact (decode_append_right before _ 0).trans (decode_encode_append i after)

/-- Settles O15: a well-formed instruction fits its field, so the wire keeps the whole of it. -/
theorem decodeOfEncodeIsTheInstruction : Obligations.DecodeOfEncodeIsTheInstruction := by
  intro i hi before after
  rw [decode_append_encode_append, onWire_of_wellFormed hi]

/-! ## Encoding what was decoded -/

theorem map_toNat_injective {n : Nat} : Function.Injective (List.map (BitVec.toNat (w := n))) :=
  List.map_injective_iff.2 fun _ _ => BitVec.eq_of_toNat_eq

theorem encodeShort_shortOperand {b1 : Byte} {id : Nat} (hid : b1.toNat / 32 = id) (b2 : Byte) :
    encodeShort id (shortOperand b1 b2).toNat = [b1, b2] := by
  have hb1 := b1.isLt
  have hb2 := b2.isLt
  apply map_toNat_injective
  rw [encodeShort_toNat (by omega), shortOperand_toNat]
  simp only [List.map, List.cons.injEq, and_true]
  omega

theorem encodeLong_longOperand {b1 : Byte} {id : Nat} (hid : b1.toNat / 32 = id) (b2 b3 b4 : Byte) :
    encodeLong id (longOperand b1 b2 b3 b4).toNat = [b1, b2, b3, b4, 0] := by
  have hb1 := b1.isLt
  have hb2 := b2.isLt
  have hb3 := b3.isLt
  have hb4 := b4.isLt
  apply map_toNat_injective
  rw [encodeLong_toNat (by omega), longOperand_toNat]
  simp only [List.map, List.cons.injEq, and_true]
  exact ⟨by omega, by omega, by omega, by omega, rfl⟩

/-- The bytes an instruction was decoded from, the pad as the encoder writes it. -/
def wireBytes (op : Opcode) (prog : List Byte) (off : Nat) : List Byte :=
  match op with
  | .sqrt => [prog.getD off 0, prog.getD (off + 1) 0, prog.getD (off + 2) 0, prog.getD (off + 3) 0, 0]
  | .writeMem | .loadConst | .readMem => [prog.getD off 0, prog.getD (off + 1) 0]

theorem encode_withOperand_operandAt {op : Opcode} {prog : List Byte} {off : Nat}
    (hid : (prog.getD off 0).toNat / 32 = op.id) :
    encode (op.withOperand (operandAt op prog off)) = wireBytes op prog off := by
  cases op with
  | sqrt => exact encodeLong_longOperand hid _ _ _
  | writeMem | loadConst | readMem => exact encodeShort_shortOperand hid _

theorem encode_of_decode {prog : List Byte} {off : Nat} {i : Instr} {w : Nat}
    (h : decode prog off = .instr i w) : encode i = wireBytes i.opcode prog off := by
  obtain ⟨hid, -, -, hoperand⟩ := decode_eq_instr h
  rw [← encode_withOperand_operandAt hid, ← hoperand, opcode_withOperand]

/-- The bytes of an operation's width but the pad are the Program's. -/
theorem wireBytes_getD {op : Opcode} {k : Nat} (hk : k < op.width) (hpad : k ≠ 4) (prog : List Byte) (off : Nat) :
    (wireBytes op prog off).getD k 0 = prog.getD (off + k) 0 := by
  cases op with
  | sqrt =>
    have hk' : k < 5 := hk
    interval_cases k
    · rfl
    · rfl
    · rfl
    · rfl
    · exact absurd rfl hpad
  | writeMem | loadConst | readMem =>
    have hk' : k < 2 := hk
    interval_cases k <;> rfl

/-- Settles O16: the operand is a field's value, and encoding it restores the bytes around the field. -/
theorem encodeOfDecodeIsTheBytes : Obligations.EncodeOfDecodeIsTheBytes := by
  intro prog off i w h
  obtain ⟨-, hw, hfits, -⟩ := decode_eq_instr h
  refine ⟨wellFormed_of_decode h, hw, hfits, fun k hk hpad => ?_, fun hw5 => ?_⟩
  · rw [encode_of_decode h]
    exact wireBytes_getD (hk.trans_eq hw) hpad prog off
  · cases i with
    | sqrt address => rfl
    | writeMem | loadConst | readMem => cases hw.symm.trans hw5

/-- Settles O56: bit 29 stands above every byte the layout takes from the operand. -/
theorem sqrtRequestLosesBit29 : Obligations.SqrtRequestLosesBit29 := by
  intro n hlow hhigh
  refine ⟨(assemblerAccepts_iff .sqrt n).2 ⟨Int.natCast_nonneg n, Int.ofNat_le.2 hhigh⟩, map_toNat_injective ?_⟩
  rw [encode, encode, encodeLong_toNat (by decide), encodeLong_toNat (by decide)]
  simp only [List.cons.injEq, and_true]
  omega

/-- Settles O18: seven evaluations. -/
theorem specVectorsDecode : Obligations.SpecVectorsDecode := by
  unfold Obligations.SpecVectorsDecode
  decide

end Sys2Proof

/-!
PROOF. Data memory (20_memory.md): what a read answers after a write (R32), which words a canonical memory lists, and
the dump (R44).
-/

namespace Sys2Proof.Machine

/-! ## A read after a write -/

theorem memRead_cons (b : Nat) (w : Word) (rest : Memory) (a : Nat) :
    memRead ((b, w) :: rest) a = if a = b then w else memRead rest a := rfl

theorem memRead_of_below {m : Memory} {a : Nat} (h : ∀ c ∈ m, a < c.1) : memRead m a = unlistedWord := by
  induction m with
  | nil => rfl
  | cons d rest ih =>
    obtain ⟨hd, hrest⟩ := List.forall_mem_cons.1 h
    exact (if_neg hd.ne).trans (ih hrest)

theorem memRead_listedCell_append_ne {a b : Nat} (hb : b ≠ a) (v : Word) (m : Memory) :
    memRead (listedCell a v ++ m) b = memRead m b := by
  unfold listedCell
  split
  · rfl
  · exact if_neg hb

/-- In front of words above it, what is listed for `a` answers for `a`, whether `v` is listed or reads as an unlisted
word does. -/
theorem memRead_listedCell_append_same {m : Memory} {a : Nat} (h : ∀ c ∈ m, a < c.1) (v : Word) :
    memRead (listedCell a v ++ m) a = v := by
  by_cases hv : v = unlistedWord
  · rw [listedCell, if_pos hv, List.nil_append, hv, memRead_of_below h]
  · rw [listedCell, if_neg hv, List.singleton_append, memRead_cons, if_pos rfl]

theorem memRead_memWrite_ne {a b : Nat} (hb : b ≠ a) (v : Word) (m : Memory) :
    memRead (memWrite m a v) b = memRead m b := by
  induction m with
  | nil => simpa [memWrite] using memRead_listedCell_append_ne hb v []
  | cons d rest ih =>
    obtain ⟨c, w⟩ := d
    rw [memWrite]
    split
    case isTrue => exact memRead_listedCell_append_ne hb v _
    case isFalse =>
      split
      case isTrue hac => rw [memRead_listedCell_append_ne hb, memRead_cons, if_neg (hac ▸ hb)]
      case isFalse => rw [memRead_cons, memRead_cons, ih]

theorem memRead_memWrite_same {m : Memory} (hm : m.wf) (a : Nat) (v : Word) :
    memRead (memWrite m a v) a = v := by
  induction m with
  | nil => simpa [memWrite] using memRead_listedCell_append_same (m := []) (a := a) (by simp) v
  | cons d rest ih =>
    obtain ⟨c, w⟩ := d
    obtain ⟨hlt, -, -, hrest⟩ := Memory.wf_cons.1 hm
    rw [memWrite]
    split
    case isTrue hac =>
      exact memRead_listedCell_append_same (List.forall_mem_cons.2 ⟨hac, fun d hd => hac.trans (hlt d hd)⟩) v
    case isFalse =>
      split
      case isTrue hac => exact memRead_listedCell_append_same (hac ▸ hlt) v
      case isFalse hac => rw [memRead_cons, if_neg hac, ih hrest]

/-- Settles O4: a write changes the word it names and keeps the form; reset lists nothing. -/
theorem dataMemoryReadsBackTheLatestWrite : Obligations.DataMemoryReadsBackTheLatestWrite :=
  ⟨fun _ a v hm ha => ⟨memWrite_wf hm ha v, memRead_memWrite_same hm a v, fun _ hb => memRead_memWrite_ne hb v _⟩,
    fun _ _ => ⟨reset_mem_wf, rfl⟩⟩

/-! ## The canonical form lists exactly the words that differ from 0 -/

theorem mem_memory_iff {m : Memory} (hm : m.wf) (a : Nat) (v : Word) :
    (a, v) ∈ m ↔ memRead m a = v ∧ v ≠ unlistedWord := by
  induction m with
  | nil => exact ⟨fun h => absurd h List.not_mem_nil, fun ⟨hv, hne⟩ => absurd hv.symm hne⟩
  | cons d rest ih =>
    obtain ⟨b, w⟩ := d
    obtain ⟨hlt, -, hw, hrest⟩ := Memory.wf_cons.1 hm
    rw [List.mem_cons, Prod.mk.injEq, memRead_cons]
    by_cases hab : a = b
    · subst hab
      have hnot : (a, v) ∉ rest := fun h => absurd (hlt _ h) (lt_irrefl a)
      simp only [true_and, hnot, or_false, if_true]
      exact ⟨fun h => ⟨h.symm, h ▸ hw⟩, fun h => h.1.symm⟩
    · rw [if_neg hab, ← ih hrest]
      simp only [hab, false_and, false_or]

theorem Memory.wf.nodup {m : Memory} (hm : m.wf) : m.Nodup :=
  hm.1.imp fun h heq => h.ne (congrArg Prod.fst heq)

theorem subset_of_memRead_eq {m n : Memory} (hm : m.wf) (hn : n.wf)
    (h : ∀ a : Nat, a < 65536 → memRead m a = memRead n a) : m ⊆ n := by
  rintro ⟨a, v⟩ hc
  rw [mem_memory_iff hn, ← h a (hm.2 _ hc).1]
  exact (mem_memory_iff hm a v).1 hc

/-- Settles O5: canonical memories with the same words list the same pairs, and both list them by rising address. -/
theorem memoriesWithTheSameWordsAreEqual : Obligations.MemoriesWithTheSameWordsAreEqual := by
  intro m n hm hn h
  have hmn : m ⊆ n := subset_of_memRead_eq hm hn h
  have hnm : n ⊆ m := subset_of_memRead_eq hn hm fun a ha => (h a ha).symm
  have hperm : m.Perm n := (List.perm_ext_iff_of_nodup hm.nodup hn.nodup).2 fun c => ⟨@hmn c, @hnm c⟩
  exact hperm.eq_of_pairwise (fun _ _ _ _ hcd hdc => absurd hcd hdc.asymm) hm.1 hn.1

/-! ## The dump -/

theorem mem_dump_iff (m : Memory) (start stop : Int) (a : Nat) (v : Word) :
    (a, v) ∈ dump m start stop ↔
      dumpLow start ≤ (a : Int) ∧ (a : Int) ≤ dumpHigh stop ∧ v = memRead m a := by
  have hlow : 0 ≤ dumpLow start := le_max_right start 0
  simp only [dump, List.mem_map, List.mem_range, Prod.mk.injEq]
  constructor
  · rintro ⟨k, hk, rfl, rfl⟩
    exact ⟨by omega, by omega, rfl⟩
  · rintro ⟨ha, hb, rfl⟩
    have hsum : (dumpLow start).toNat + (a - (dumpLow start).toNat) = a := by omega
    exact ⟨a - (dumpLow start).toNat, by omega, hsum, by rw [hsum]⟩

/-- Settles O53: the offsets from the first address rise from 0 to the length of the clamped range. -/
theorem dumpListsTheClampedRangeAscending : Obligations.DumpListsTheClampedRangeAscending := by
  refine fun m start stop => ⟨?_, mem_dump_iff m start stop⟩
  rw [dump, List.pairwise_map]
  exact List.pairwise_lt_range.imp fun h => Nat.add_lt_add_left h _

end Sys2Proof.Machine

/-!
PROOF. The integer square root (43_sqrt.md section 1, R121): the root of `v / 4`, doubled, is the root of `v` or one
less, so the recursion computes the library's `Nat.sqrt`, and the laws of R121 are that function's.
-/

namespace Sys2Proof.Machine

/-- One level of the recursion: `q` is the root of `v / 4`. -/
theorem double_sqrt_div_four {v q : Nat} (hq : q = Nat.sqrt (v / 4)) :
    (if (2 * q + 1) * (2 * q + 1) ≤ v then 2 * q + 1 else 2 * q) = Nat.sqrt v := by
  obtain ⟨hle, hlt⟩ := Nat.eq_sqrt.1 hq
  have hlow : 2 * q * (2 * q) ≤ v := by
    calc 2 * q * (2 * q) = 4 * (q * q) := by ring
      _ ≤ v := by omega
  have hhigh : v < (2 * q + 1 + 1) * (2 * q + 1 + 1) := by
    calc v < 4 * ((q + 1) * (q + 1)) := by omega
      _ = (2 * q + 1 + 1) * (2 * q + 1 + 1) := by ring
  split
  · exact Nat.eq_sqrt.2 ⟨‹_›, hhigh⟩
  · exact Nat.eq_sqrt.2 ⟨hlow, not_le.1 ‹_›⟩

theorem isqrtFuel_eq_sqrt {fuel v : Nat} (hv : v ≤ fuel) : isqrtFuel fuel v = Nat.sqrt v := by
  induction fuel generalizing v with
  | zero =>
    obtain rfl : v = 0 := Nat.le_zero.1 hv
    rfl
  | succ fuel ih =>
    rw [isqrtFuel]
    split
    case isTrue h2 =>
      interval_cases v <;> rfl
    case isFalse h2 => exact double_sqrt_div_four (ih (by omega))

theorem isqrt_eq_sqrt (v : Nat) : isqrt v = Nat.sqrt v := isqrtFuel_eq_sqrt le_rfl

theorem isqrt_le_self (v : Nat) : isqrt v ≤ v := isqrt_eq_sqrt v ▸ Nat.sqrt_le_self v

theorem isqrt_bounds (v : Nat) : isqrt v * isqrt v ≤ v ∧ v < (isqrt v + 1) * (isqrt v + 1) :=
  Nat.eq_sqrt.1 (isqrt_eq_sqrt v)

/-- The bounds determine the root. -/
theorem isqrt_eq_of_bounds {r v : Nat} (hle : r * r ≤ v) (hlt : v < (r + 1) * (r + 1)) : isqrt v = r := by
  rw [isqrt_eq_sqrt, ← Nat.eq_sqrt.2 ⟨hle, hlt⟩]

theorem isqrt_mono {v w : Nat} (h : v ≤ w) : isqrt v ≤ isqrt w := by
  rw [isqrt_eq_sqrt, isqrt_eq_sqrt]
  exact Nat.sqrt_le_sqrt h

theorem isqrt_mul_self (n : Nat) : isqrt (n * n) = n :=
  isqrt_eq_of_bounds le_rfl (Nat.mul_self_lt_mul_self n.lt_succ_self)

theorem isqrt_pred_mul_self {n : Nat} (hn : 1 ≤ n) : isqrt (n * n - 1) = n - 1 := by
  obtain ⟨m, rfl⟩ := Nat.exists_eq_add_of_le' hn
  have hsq : (m + 1) * (m + 1) = m * m + 2 * m + 1 := by ring
  exact isqrt_eq_of_bounds (by rw [hsq, Nat.add_sub_cancel]; omega) (by rw [Nat.add_sub_cancel]; omega)

/-- Settles O28: `isqrt` is the library's square root. -/
theorem isqrtIsTheFloorOfTheSquareRoot : Obligations.IsqrtIsTheFloorOfTheSquareRoot :=
  ⟨fun v => ⟨(isqrt_bounds v).1, (isqrt_bounds v).2, isqrt_le_self v⟩, fun _ _ => isqrt_mono, isqrt_mul_self,
    fun _ => isqrt_pred_mul_self⟩

/-- The root of a non-negative word fits a word, as the word of that value. -/
theorem rootWord_toInt {v : Word} (hv : 0 ≤ v.toInt) : (rootWord v).toInt = isqrt v.toInt.toNat := by
  have hle := isqrt_le_self v.toInt.toNat
  have hlt : 2 * v.toInt < 2 ^ 32 := BitVec.two_mul_toInt_lt
  exact constantWord_toInt (by omega)

end Sys2Proof.Machine

/-!
PROOF. `ReadMem` and `WriteMem` (42_readmem_writemem.md): their equation for each outcome of their checks; with those
of `Sqrt` and `LoadConst`, where each instruction succeeds and what it then does, where it halts and with what report.
-/

namespace Sys2Proof.Machine

/-! ## The equations of `ReadMem` and `WriteMem` -/

section
variable {s : State} {xs : List Word} {b v : Word} {offset : Nat}

theorem exec_readMem_of_nil (hs : s.stack = []) (offset : Nat) :
    exec (.readMem offset) s = .next (haltWith .stackUnderflow 0 s) :=
  withPop_of_nil hs _

theorem exec_readMem_of_concat (hs : s.stack = xs ++ [b]) (offset : Nat) :
    exec (.readMem offset) s = withDataAddress (b.toInt + offset) { s with stack := xs } fun a =>
      .next (advance 2 (push (memRead s.mem a) { s with stack := xs })) :=
  withPop_of_concat hs _

theorem exec_readMem_of_mem (hs : s.stack = xs ++ [b]) (ha : 0 ≤ b.toInt + offset ∧ b.toInt + offset < 65536) :
    exec (.readMem offset) s =
      .next (advance 2 (push (memRead s.mem (b.toInt + offset).toNat) { s with stack := xs })) := by
  rw [exec_readMem_of_concat hs, withDataAddress_of_mem ha]

theorem exec_readMem_of_not_mem (hs : s.stack = xs ++ [b])
    (ha : b.toInt + offset < 0 ∨ 65536 ≤ b.toInt + offset) :
    exec (.readMem offset) s =
      .next (haltWith .memoryRangeError (b.toInt + offset) { s with stack := xs }) := by
  rw [exec_readMem_of_concat hs, withDataAddress_of_not_mem ha]

/-- Whether the first pop underflows or the second, the stack is left empty. -/
theorem exec_writeMem_of_short (hs : s.stack.length ≤ 1) (offset : Nat) :
    exec (.writeMem offset) s = .next (haltWith .stackUnderflow 0 { s with stack := [] }) := by
  rcases List.eq_nil_or_concat' s.stack with hnil | ⟨ys, v, hv⟩
  · have hself : { s with stack := [] } = s := by rw [← hnil]
    rw [hself]
    exact withPop_of_nil hnil _
  · obtain rfl : ys = [] := List.length_eq_zero_iff.1 (by rw [hv, List.length_append] at hs; simpa using hs)
    exact (withPop_of_concat hv _).trans (withPop_of_nil rfl _)

theorem exec_writeMem_of_concat (hs : s.stack = xs ++ [b, v]) (offset : Nat) :
    exec (.writeMem offset) s = withDataAddress (b.toInt + offset) { s with stack := xs } fun a =>
      .next (advance 2 (store a v { s with stack := xs })) := by
  have hv : s.stack = (xs ++ [b]) ++ [v] := by rw [hs, List.append_assoc]; rfl
  exact (withPop_of_concat hv _).trans (withPop_of_concat rfl _)

theorem exec_writeMem_of_mem (hs : s.stack = xs ++ [b, v])
    (ha : 0 ≤ b.toInt + offset ∧ b.toInt + offset < 65536) :
    exec (.writeMem offset) s =
      .next (advance 2 (store (b.toInt + offset).toNat v { s with stack := xs })) := by
  rw [exec_writeMem_of_concat hs, withDataAddress_of_mem ha]

theorem exec_writeMem_of_not_mem (hs : s.stack = xs ++ [b, v])
    (ha : b.toInt + offset < 0 ∨ 65536 ≤ b.toInt + offset) :
    exec (.writeMem offset) s =
      .next (haltWith .memoryRangeError (b.toInt + offset) { s with stack := xs }) := by
  rw [exec_writeMem_of_concat hs, withDataAddress_of_not_mem ha]

end

/-! ## Results -/

/-- Settles O25: the equation of `ReadMem` past its checks. -/
theorem readMemReplacesTheBaseByTheWordRead : Obligations.ReadMemReplacesTheBaseByTheWordRead :=
  fun _ _ _ _ _ hs h0 h1 => exec_readMem_of_mem hs ⟨h0, h1⟩

/-- Settles O26: the equation of `WriteMem` past its checks. -/
theorem writeMemStoresTheTopAtTheBaseBelowIt : Obligations.WriteMemStoresTheTopAtTheBaseBelowIt :=
  fun _ _ _ _ _ _ hs h0 h1 => exec_writeMem_of_mem hs ⟨h0, h1⟩

/-- Settles O27: the equation of `Sqrt` past its checks, and the bounds of the root it stores. -/
theorem sqrtStoresTheFloorRootAtTheLiteralAddress : Obligations.SqrtStoresTheFloorRootAtTheLiteralAddress := by
  intro address s xs v _ hs hv ha
  obtain ⟨hle, hlt⟩ := isqrt_bounds v.toInt.toNat
  exact ⟨isqrt v.toInt.toNat, hle, hlt, rootWord_toInt hv, exec_sqrt_of_near hs hv ha⟩

/-- A `ReadMem` that names a word a write has stored pushes the stored value. -/
theorem exec_readMem_of_memWrite {u : State} {m : Memory} {a offset : Nat} {v b : Word} {ys : List Word}
    (hm : m.wf) (hmem : u.mem = memWrite m a v) (hs : u.stack = ys ++ [b]) (hb : b.toInt + offset = a)
    (ha : a < 65536) :
    exec (.readMem offset) u = .next { u with stack := ys ++ [v], pc := u.pc + 2 } := by
  have hread : memRead u.mem (b.toInt + offset).toNat = v := by
    rw [hmem, hb, Int.toNat_natCast, memRead_memWrite_same hm]
  rw [exec_readMem_of_mem hs (by omega), hread]
  rfl

/-- Settles O44: what both stores leave in memory is a write to the word the `ReadMem` names. -/
theorem readMemReturnsTheStoredWord : Obligations.ReadMemReturnsTheStoredWord := by
  constructor
  · intro s t u xs ys b v b' offset offset' _ hm hs h0 h1 h _ hmem hu haddr
    obtain rfl := Host.Outcome.next.inj ((exec_writeMem_of_mem hs ⟨h0, h1⟩).symm.trans h)
    exact exec_readMem_of_memWrite hm hmem hu (by omega) (by omega)
  · intro s t u xs ys v b' address offset' _ hm hs hv ha h _ hmem hu haddr
    obtain rfl := Host.Outcome.next.inj ((exec_sqrt_of_near hs hv ha).symm.trans h)
    exact exec_readMem_of_memWrite hm hmem hu haddr ha

/-! ## Halts -/

/-- Settles O29: the equations of `ReadMem` at its two checks. -/
theorem readMemHaltsOnUnderflowAndRange : Obligations.ReadMemHaltsOnUnderflowAndRange :=
  fun offset _ _ => ⟨fun hs => exec_readMem_of_nil hs offset, fun _ _ hs ha => exec_readMem_of_not_mem hs ha⟩

/-- Settles O30: the equations of `WriteMem` at its checks. -/
theorem writeMemHaltsOnUnderflowAndRange : Obligations.WriteMemHaltsOnUnderflowAndRange :=
  fun offset _ _ =>
    ⟨fun hs => exec_writeMem_of_short hs offset, fun _ _ _ hs ha => exec_writeMem_of_not_mem hs ha⟩

/-- Settles O31: the equations of `Sqrt` at its three checks. -/
theorem sqrtHaltsOnUnderflowSignAndRange : Obligations.SqrtHaltsOnUnderflowSignAndRange :=
  fun address _ _ => ⟨fun hs => exec_sqrt_of_nil hs address, fun _ _ hs =>
    ⟨fun hv => exec_sqrt_of_negative hs hv address, fun hv ha => exec_sqrt_of_far hs hv ha⟩⟩

/-- Settles O20: the three clean halts are one halt entry, each with its cause. -/
theorem cleanHaltWritesTheReportAndNothingElse : Obligations.CleanHaltWritesTheReportAndNothingElse :=
  fun _ hs => ⟨step_of_endOfProgram hs, step_of_truncated hs, step_of_unknownOpcode hs⟩

end Sys2Proof.Machine

/-!
PROOF. No instruction and no step ends without a next state (40_engine_fsm.md section 5): the checked forms answer when
what they continue with does.
-/

namespace Sys2Proof.Machine

theorem withPop_answers {rest : Word → State → Result} (hrest : ∀ v s, ∃ t, rest v s = .next t) (s : State) :
    ∃ t, withPop s rest = .next t := by
  rcases List.eq_nil_or_concat' s.stack with hs | ⟨xs, v, hs⟩
  · exact ⟨_, withPop_of_nil hs rest⟩
  · rw [withPop_of_concat hs]
    exact hrest v _

theorem withDataAddress_answers {rest : Nat → Result} (hrest : ∀ a, ∃ t, rest a = .next t) (address : Int)
    (s : State) : ∃ t, withDataAddress address s rest = .next t := by
  by_cases ha : 0 ≤ address ∧ address < 65536
  · rw [withDataAddress_of_mem ha]
    exact hrest _
  · exact ⟨_, withDataAddress_of_not_mem (by omega) s rest⟩

theorem exec_answers (i : Instr) (s : State) : ∃ t, exec i s = .next t := by
  cases i with
  | loadConst k => exact ⟨_, exec_loadConst k s⟩
  | readMem offset => exact withPop_answers (fun _ _ => withDataAddress_answers (fun _ => ⟨_, rfl⟩) _ _) s
  | writeMem offset =>
    exact withPop_answers
      (fun _ => withPop_answers fun _ _ => withDataAddress_answers (fun _ => ⟨_, rfl⟩) _ _) s
  | sqrt address => exact exec_sqrt_answers address s

theorem step_answers (s : State) : ∃ t, step s = .next t := by
  cases hs : s.runState with
  | halted => exact ⟨_, step_of_halted hs⟩
  | running =>
    cases hd : decode s.prog s.pc with
    | instr i w =>
      rw [step_of_instr hs hd]
      exact exec_answers i s
    | endOfProgram => exact ⟨_, step_of_endOfProgram hs hd⟩
    | truncated => exact ⟨_, step_of_truncated hs hd⟩
    | unknownOpcode => exact ⟨_, step_of_unknownOpcode hs hd⟩

/-- Settles O23: an instruction is built from checked forms, and every other step is a halt entry or none. -/
theorem everyStepAnswersANextState : Obligations.EveryStepAnswersANextState :=
  ⟨exec_answers, step_answers⟩

end Sys2Proof.Machine

/-!
PROOF. When each execution error is reported (60_exceptions.md section 1): what an instruction that answers a cause it
did not start with has found on the stack and in its operand.
-/

namespace Sys2Proof.Machine

section
variable {s t : State} {i : Instr}

/-- An instruction that succeeds does not write the report. -/
theorem exec_report_of_running (h : exec i s = .next t) (ht : t.runState = .running) :
    t.haltReason = s.haltReason ∧ t.haltPc = s.haltPc ∧ t.haltAddr = s.haltAddr := by
  cases i with
  | loadConst k =>
    obtain rfl := execLoadConst_next h
    exact ⟨rfl, rfl, rfl⟩
  | readMem offset =>
    obtain ⟨_, _, -, -, -, rfl⟩ := execReadMem_next_running h ht
    exact ⟨rfl, rfl, rfl⟩
  | writeMem offset =>
    obtain ⟨_, _, _, -, -, -, rfl⟩ := execWriteMem_next_running h ht
    exact ⟨rfl, rfl, rfl⟩
  | sqrt address =>
    obtain ⟨_, _, -, -, -, rfl⟩ := execSqrt_next_running h ht
    exact ⟨rfl, rfl, rfl⟩

/-- A cause that was not there before the instruction was written by its halt. -/
theorem exec_next_of_new_reason (hs : s.runState = .running) (h : exec i s = .next t)
    (hr : t.haltReason ≠ s.haltReason) :
    ∃ (e : ExecError) (xs : List Word), t = haltWith e.reason e.address { s with stack := xs } := by
  refine exec_next_halted hs h ?_
  cases ht : t.runState with
  | halted => rfl
  | running => exact absurd (exec_report_of_running h ht).1 hr

theorem ExecError.address_of_reason_ne {e : ExecError} (he : e.reason ≠ .memoryRangeError) : e.address = 0 := by
  cases e with
  | stackUnderflow | negativeRadicandError => rfl
  | memoryRangeError address => exact absurd rfl he

/-- How many elements an instruction pops. -/
def popCount : Instr → Nat
  | .loadConst _ => 0
  | .readMem _ => 1
  | .writeMem _ => 2
  | .sqrt _ => 1

theorem exec_stackUnderflow_iff (hs : s.haltReason ≠ .stackUnderflow) (h : exec i s = .next t) :
    t.haltReason = .stackUnderflow ↔ s.stack.length < popCount i := by
  cases i with
  | loadConst k =>
    obtain rfl := execLoadConst_next h
    simp [hs, popCount]
  | readMem offset =>
    rcases execReadMem_next h with ⟨hn, rfl⟩ | ⟨xs, b, hc, ⟨-, -, rfl⟩ | ⟨-, rfl⟩⟩
    · simp [hn, popCount]
    · simp [hc, hs, popCount]
    · simp [hc, popCount]
  | writeMem offset =>
    rcases execWriteMem_next h with ⟨hn, rfl⟩ | ⟨v, hn, rfl⟩ | ⟨xs, b, v, hc, ⟨-, -, rfl⟩ | ⟨-, rfl⟩⟩
    · simp [hn, popCount]
    · simp [hn, popCount]
    · simp [hc, hs, popCount]
    · simp [hc, popCount]
  | sqrt address =>
    rcases execSqrt_next h with ⟨hn, rfl⟩ | ⟨xs, v, hc, ⟨-, rfl⟩ | ⟨-, -, rfl⟩ | ⟨-, -, rfl⟩⟩
    · simp [hn, popCount]
    · simp [hc, popCount]
    · simp [hc, hs, popCount]
    · simp [hc, popCount]

theorem exec_negativeRadicandError_iff (hs : s.haltReason ≠ .negativeRadicandError) (h : exec i s = .next t) :
    t.haltReason = .negativeRadicandError ↔
      ∃ (address : Nat) (xs : List Word) (v : Word), i = .sqrt address ∧ s.stack = xs ++ [v] ∧ v.toInt < 0 := by
  constructor
  · intro hr
    cases i with
    | loadConst k =>
      obtain rfl := execLoadConst_next h
      exact absurd hr hs
    | readMem offset =>
      rcases execReadMem_next h with ⟨-, rfl⟩ | ⟨_, _, -, ⟨-, -, rfl⟩ | ⟨-, rfl⟩⟩
      · cases hr
      · exact absurd hr hs
      · cases hr
    | writeMem offset =>
      rcases execWriteMem_next h with ⟨-, rfl⟩ | ⟨_, -, rfl⟩ | ⟨_, _, _, -, ⟨-, -, rfl⟩ | ⟨-, rfl⟩⟩
      · cases hr
      · cases hr
      · exact absurd hr hs
      · cases hr
    | sqrt address =>
      rcases execSqrt_next h with ⟨-, rfl⟩ | ⟨xs, v, hc, ⟨hv, -⟩ | ⟨-, -, rfl⟩ | ⟨-, -, rfl⟩⟩
      · cases hr
      · exact ⟨address, xs, v, rfl, hc, hv⟩
      · exact absurd hr hs
      · cases hr
  · rintro ⟨address, xs, v, rfl, hc, hv⟩
    obtain rfl := Host.Outcome.next.inj ((exec_sqrt_of_negative hc hv address).symm.trans h)
    rfl

/-- Where a range error comes from: the address it reports is out of range, and is the sum of a base from the stack
and the operand, or the literal operand of a `Sqrt`. -/
theorem exec_memoryRangeError (hs : s.haltReason ≠ .memoryRangeError) (h : exec i s = .next t)
    (hr : t.haltReason = .memoryRangeError) :
    (t.haltAddr < 0 ∨ 65536 ≤ t.haltAddr) ∧
      ((i.opcode ≠ .sqrt ∧ ∃ b ∈ s.stack, t.haltAddr = b.toInt + i.operand) ∨
        ∃ address, i = .sqrt address ∧ t.haltAddr = (address : Int)) := by
  cases i with
  | loadConst k =>
    obtain rfl := execLoadConst_next h
    exact absurd hr hs
  | readMem offset =>
    rcases execReadMem_next h with ⟨-, rfl⟩ | ⟨xs, b, hc, ⟨-, -, rfl⟩ | ⟨ha, rfl⟩⟩
    · cases hr
    · exact absurd hr hs
    · exact ⟨ha, .inl ⟨nofun, b, by simp [hc], rfl⟩⟩
  | writeMem offset =>
    rcases execWriteMem_next h with ⟨-, rfl⟩ | ⟨_, -, rfl⟩ | ⟨xs, b, v, hc, ⟨-, -, rfl⟩ | ⟨ha, rfl⟩⟩
    · cases hr
    · cases hr
    · exact absurd hr hs
    · exact ⟨ha, .inl ⟨nofun, b, by simp [hc], rfl⟩⟩
  | sqrt address =>
    rcases execSqrt_next h with ⟨-, rfl⟩ | ⟨_, _, -, ⟨-, rfl⟩ | ⟨-, -, rfl⟩ | ⟨-, ha, rfl⟩⟩
    · cases hr
    · cases hr
    · exact absurd hr hs
    · exact ⟨.inr (Int.ofNat_le.2 ha), .inr ⟨address, rfl, rfl⟩⟩

end

/-- Settles O32: an underflow is a pop too many, and the halt entry that reports it carries no address. -/
theorem stackUnderflowExactlyWhenOperandsAreMissing : Obligations.StackUnderflowExactlyWhenOperandsAreMissing := by
  intro i s hs hnone needed
  have hneeded : needed = popCount i := by cases i <;> rfl
  obtain ⟨t, h⟩ := exec_answers i s
  refine ⟨t, h, hneeded ▸ exec_stackUnderflow_iff (by simp [hnone]) h, fun hr => ?_⟩
  obtain ⟨e, xs, rfl⟩ := exec_next_of_new_reason hs h (by simp [hr, hnone])
  have hreason : e.reason = .stackUnderflow := hr
  exact ⟨rfl, ExecError.address_of_reason_ne (by simp [hreason]), rfl, rfl, rfl⟩

/-- The range check of an address, in front of a rest that succeeds. -/
theorem withDataAddress_reports (address : Int) (s : State) {rest : Nat → Result}
    (hrest : ∀ a, ∃ t, rest a = .next t ∧ t.haltReason = .none) :
    ∃ t, withDataAddress address s rest = .next t ∧
      (t.haltReason = .memoryRangeError ↔ address < 0 ∨ 65536 ≤ address) ∧
      (t.haltReason = .memoryRangeError → t.haltAddr = address) := by
  by_cases ha : address < 0 ∨ 65536 ≤ address
  · exact ⟨_, withDataAddress_of_not_mem ha s rest, iff_of_true rfl ha, fun _ => rfl⟩
  · obtain ⟨t, ht, hnone⟩ := hrest address.toNat
    have hne : t.haltReason ≠ .memoryRangeError := by simp [hnone]
    exact ⟨t, (withDataAddress_of_mem (by omega) s rest).trans ht, iff_of_false hne ha, fun hr => absurd hr hne⟩

/-- Settles O33: past the other checks each of the three is a range check in front of a rest that succeeds. -/
theorem rangeErrorExactlyOutsideDataMemory : Obligations.RangeErrorExactlyOutsideDataMemory := by
  refine fun s k xs b v _ hnone => ⟨fun hs => ?_, fun hs => ?_, fun hs hv => ?_⟩
  · rw [exec_readMem_of_concat hs]
    exact withDataAddress_reports _ _ fun _ => ⟨_, rfl, hnone⟩
  · rw [exec_writeMem_of_concat hs]
    exact withDataAddress_reports _ _ fun _ => ⟨_, rfl, hnone⟩
  · rw [exec_sqrt_of_nonneg hs hv]
    obtain ⟨t, ht, hiff, haddr⟩ := withDataAddress_reports (k : Int) { s with stack := xs }
      (rest := fun a => .next (advance 5 (store a (rootWord v) { s with stack := xs }))) fun _ => ⟨_, rfl, hnone⟩
    exact ⟨t, ht, hiff.trans (by omega), haddr⟩

/-- Settles O34: only the sign check reports this error; 0 passes it, and its root is 0. -/
theorem negativeRadicandErrorExactlyFromSqrtOfANegative :
    Obligations.NegativeRadicandErrorExactlyFromSqrtOfANegative := by
  refine ⟨fun i s hs hnone => ?_, fun address s xs _ hstack ha => exec_sqrt_of_near hstack le_rfl ha⟩
  obtain ⟨t, h⟩ := exec_answers i s
  refine ⟨t, h, exec_negativeRadicandError_iff (by simp [hnone]) h, fun hr => ?_⟩
  obtain ⟨e, xs, rfl⟩ := exec_next_of_new_reason hs h (by simp [hr, hnone])
  have hreason : e.reason = .negativeRadicandError := hr
  exact ExecError.address_of_reason_ne (by simp [hreason])

end Sys2Proof.Machine

/-!
PROOF. Frames (41_loadconst.md, 42_readmem_writemem.md, 43_sqrt.md): what an instruction leaves unchanged.
-/

namespace Sys2Proof.Machine

/-- Settles O38: neither form writes memory, and a `ReadMem` that succeeds has the deeper stack it popped from. -/
theorem loadConstAndReadMemFrame : Obligations.LoadConstAndReadMemFrame := by
  constructor
  · intro k s t h
    obtain rfl := execLoadConst_next h
    exact ⟨fun _ => rfl, rfl, ⟨_, rfl⟩, rfl, rfl, rfl, rfl⟩
  · intro offset s t _ h
    refine ⟨fun a => by rw [execReadMem_mem h], exec_prog h, fun ht => ⟨?_, exec_report_of_running h ht⟩⟩
    obtain ⟨xs, b, hs, -, -, rfl⟩ := execReadMem_next_running h ht
    simp [hs]

/-- A store in front of the range check: the one word it may change, and the fields no outcome changes. -/
theorem withDataAddress_store_frame {address : Int} {w : Nat} {v : Word} {s t : State}
    (h : withDataAddress address s (fun a => .next (advance w (store a v s))) = .next t) :
    (∀ a : Int, address = a → ∀ c : Nat, (c : Int) ≠ a → memRead t.mem c = memRead s.mem c) ∧
      t.stack = s.stack := by
  rcases withDataAddress_next h with ⟨h0, -, hn⟩ | ⟨-, rfl⟩
  · obtain rfl := Host.Outcome.next.inj hn
    refine ⟨?_, rfl⟩
    rintro a rfl c hc
    exact memRead_memWrite_ne (by omega) v s.mem
  · exact ⟨fun _ _ _ _ => rfl, rfl⟩

/-- Settles O39: with its operands present each form is at most a range check in front of a store. -/
theorem writeMemAndSqrtFrame : Obligations.WriteMemAndSqrtFrame := by
  constructor
  · intro offset s t xs b v _ hs h
    obtain ⟨hmem, hstack⟩ := withDataAddress_store_frame ((exec_writeMem_of_concat hs offset).symm.trans h)
    exact ⟨hmem, exec_prog h, hstack, exec_report_of_running h⟩
  · intro address s t xs v _ hs h
    suffices hframe : (∀ a : Int, absoluteAddress address = a →
        ∀ c : Nat, (c : Int) ≠ a → memRead t.mem c = memRead s.mem c) ∧ t.stack = xs from
      ⟨hframe.1, exec_prog h, hframe.2, exec_report_of_running h⟩
    rcases lt_or_ge v.toInt 0 with hv | hv
    · obtain rfl := Host.Outcome.next.inj ((exec_sqrt_of_negative hs hv address).symm.trans h)
      exact ⟨fun _ _ _ _ => rfl, rfl⟩
    · exact withDataAddress_store_frame ((exec_sqrt_of_nonneg hs hv address).symm.trans h)

end Sys2Proof.Machine

/-!
PROOF. What an instruction cannot see: the halt report (10_state.md section 7) and the stack below the elements it
pops (10_state.md section 4). Both are read off the form of the meanings: related states are carried to related
answers by each checked form whose continuation does so.
-/

namespace Sys2Proof.Machine

/-- `f` carries states related by `R` to answers related by `Q`. -/
def Carries (R Q : State → State → Prop) (f : State → Result) : Prop :=
  ∀ s s' t : State, R s s' → f s = .next t → ∃ t', f s' = .next t' ∧ Q t t'

section
variable {R Q : State → State → Prop}

theorem carries_next {f : State → State} (hf : ∀ s s', R s s' → Q (f s) (f s')) :
    Carries R Q fun s => .next (f s) := by
  intro s s' t hR h
  obtain rfl := Host.Outcome.next.inj h
  exact ⟨f s', rfl, hf s s' hR⟩

/-- A check whose condition is fixed between two continuations. -/
theorem Carries.ite {c : Prop} [Decidable c] {f g : State → Result} (hf : Carries R Q f) (hg : Carries R Q g) :
    Carries R Q fun s => if c then f s else g s := by
  by_cases hc : c
  · simpa only [if_pos hc] using hf
  · simpa only [if_neg hc] using hg

/-- A pop that takes the same top from both states. -/
theorem Carries.withPop_of_concat {s s' t : State} {xs xs' : List Word} {v : Word} {rest : Word → State → Result}
    (hrest : Carries R Q (rest v)) (hs : s.stack = xs ++ [v]) (hs' : s'.stack = xs' ++ [v])
    (hR : R { s with stack := xs } { s' with stack := xs' }) (h : withPop s rest = .next t) :
    ∃ t', withPop s' rest = .next t' ∧ Q t t' := by
  rw [Machine.withPop_of_concat hs] at h
  rw [Machine.withPop_of_concat hs']
  exact hrest _ _ t hR h

end

/-! ## The halt report -/

/-- `s'` differs from `s` in the report registers at most. -/
def SameButReport (s s' : State) : Prop :=
  ∃ (r : HaltReason) (p : Nat) (a : Int), s' = { s with haltReason := r, haltPc := p, haltAddr := a }

/-- What an instruction does without a look at the report. -/
abbrev IgnoresReport (f : State → Result) : Prop := Carries SameButReport SameButReport f

theorem ignoresReport_raise (e : ExecError) : IgnoresReport (raise e) := by
  refine carries_next ?_
  rintro s _ ⟨r, p, a, rfl⟩
  exact ⟨_, _, _, rfl⟩

theorem IgnoresReport.withPop {rest : Word → State → Result} (hrest : ∀ v, IgnoresReport (rest v)) :
    IgnoresReport fun s => withPop s rest := by
  rintro s _ t ⟨r, p, a, rfl⟩ h
  rcases List.eq_nil_or_concat' s.stack with hs | ⟨xs, v, hs⟩
  · obtain rfl := Host.Outcome.next.inj ((withPop_of_nil hs rest).symm.trans h)
    exact ⟨_, withPop_of_nil (s := { s with haltReason := r, haltPc := p, haltAddr := a }) hs rest, _, _, _, rfl⟩
  · exact (hrest v).withPop_of_concat hs (by exact hs) ⟨r, p, a, rfl⟩ h

theorem IgnoresReport.withDataAddress (address : Int) {rest : Nat → State → Result}
    (hrest : ∀ a, IgnoresReport (rest a)) :
    IgnoresReport fun s => withDataAddress address s fun a => rest a s :=
  .ite (hrest _) (ignoresReport_raise _)

theorem ignoresReport_advance_push (w : Nat) (v : Memory → Word) :
    IgnoresReport fun s => .next (advance w (push (v s.mem) s)) := by
  refine carries_next ?_
  rintro s _ ⟨r, p, a, rfl⟩
  exact ⟨r, p, a, rfl⟩

theorem ignoresReport_advance_store (w a : Nat) (v : Word) :
    IgnoresReport fun s => .next (advance w (store a v s)) := by
  refine carries_next ?_
  rintro s _ ⟨r, p, a, rfl⟩
  exact ⟨r, p, a, rfl⟩

theorem exec_ignoresReport (i : Instr) : IgnoresReport (exec i) := by
  cases i with
  | loadConst k => exact ignoresReport_advance_push 2 fun _ => constantWord k
  | readMem offset =>
    exact .withPop fun b => .withDataAddress _ fun a => ignoresReport_advance_push 2 fun m => memRead m a
  | writeMem offset =>
    exact .withPop fun v => .withPop fun b => .withDataAddress _ fun a => ignoresReport_advance_store 2 a v
  | sqrt address =>
    exact .withPop fun v => .ite (ignoresReport_raise _)
      (IgnoresReport.withDataAddress _ fun a => ignoresReport_advance_store 5 a (rootWord v))

/-- Settles O42: no form an instruction is built from reads the report. -/
theorem haltReportIsInvisibleToInstructions : Obligations.HaltReportIsInvisibleToInstructions := by
  intro i s t r p a _ h
  obtain ⟨_, ht', _, _, _, rfl⟩ := exec_ignoresReport i s _ t ⟨r, p, a, rfl⟩ h
  exact ⟨_, ht', rfl, rfl, rfl, rfl, rfl⟩

/-! ## The deeper stack -/

/-- `s'` is `s` above the elements `deeper`. -/
def AboveDeeper (deeper : List Word) (s s' : State) : Prop := s' = { s with stack := deeper ++ s.stack }

/-- The same, with `n` elements present in `s`. -/
def AboveDeeperWith (deeper : List Word) (n : Nat) (s s' : State) : Prop :=
  n ≤ s.stack.length ∧ AboveDeeper deeper s s'

/-- What an instruction that pops `n` elements does without a look below them. -/
abbrev IgnoresDeeper (deeper : List Word) (n : Nat) (f : State → Result) : Prop :=
  Carries (AboveDeeperWith deeper n) (AboveDeeper deeper) f

section
variable {deeper : List Word}

theorem ignoresDeeper_raise (e : ExecError) : IgnoresDeeper deeper 0 (raise e) := by
  refine carries_next ?_
  rintro s _ ⟨-, rfl⟩
  rfl

/-- With one more element present than the rest of the instruction needs, the pop takes it from `s` itself. -/
theorem IgnoresDeeper.withPop {n : Nat} {rest : Word → State → Result}
    (hrest : ∀ v, IgnoresDeeper deeper n (rest v)) : IgnoresDeeper deeper (n + 1) fun s => withPop s rest := by
  rintro s _ t ⟨hn, rfl⟩ h
  rcases List.eq_nil_or_concat' s.stack with hs | ⟨xs, v, hs⟩
  · rw [hs] at hn
    cases hn
  · have hs' : deeper ++ s.stack = (deeper ++ xs) ++ [v] := by rw [hs, List.append_assoc]
    have hxs : n ≤ xs.length := by simpa [hs] using hn
    exact (hrest v).withPop_of_concat hs hs' ⟨hxs, rfl⟩ h

theorem IgnoresDeeper.withDataAddress (address : Int) {rest : Nat → State → Result}
    (hrest : ∀ a, IgnoresDeeper deeper 0 (rest a)) :
    IgnoresDeeper deeper 0 fun s => withDataAddress address s fun a => rest a s :=
  .ite (hrest _) (ignoresDeeper_raise _)

theorem ignoresDeeper_advance_push (w : Nat) (v : Memory → Word) :
    IgnoresDeeper deeper 0 fun s => .next (advance w (push (v s.mem) s)) := by
  refine carries_next ?_
  rintro s _ ⟨-, rfl⟩
  simp [AboveDeeper, advance, push]

theorem ignoresDeeper_advance_store (w a : Nat) (v : Word) :
    IgnoresDeeper deeper 0 fun s => .next (advance w (store a v s)) := by
  refine carries_next ?_
  rintro s _ ⟨-, rfl⟩
  rfl

theorem exec_ignoresDeeper (i : Instr) : IgnoresDeeper deeper (popCount i) (exec i) := by
  cases i with
  | loadConst k => exact ignoresDeeper_advance_push 2 fun _ => constantWord k
  | readMem offset =>
    exact .withPop fun b => .withDataAddress _ fun a => ignoresDeeper_advance_push 2 fun m => memRead m a
  | writeMem offset =>
    exact .withPop fun v => .withPop fun b => .withDataAddress _ fun a => ignoresDeeper_advance_store 2 a v
  | sqrt address =>
    exact .withPop fun v => .ite (ignoresDeeper_raise _)
      (IgnoresDeeper.withDataAddress _ fun a => ignoresDeeper_advance_store 5 a (rootWord v))

end

/-- Settles O43: each pop takes an element the instruction has, so none reaches below. -/
theorem deeperStackElementsAreUntouched : Obligations.DeeperStackElementsAreUntouched := by
  intro i s t deeper _ hn h
  have hcount : popCount i ≤ s.stack.length := by cases i <;> exact hn
  obtain ⟨_, ht', rfl⟩ := exec_ignoresDeeper i s _ t ⟨hcount, rfl⟩ h
  exact ht'

end Sys2Proof.Machine

/-!
PROOF. The assembler (30_encoding.md R65 to R68): an equation per outcome of a request, then whole sequences of
requests, the index running from any start.
-/

namespace Sys2Proof

section
variable {policy : Config.UnknownMnemonicPolicy} {index : Nat} {r : Request} {rest : List Request} {op : Opcode}

theorem assembleFrom_cons_of_accepted (hname : lookupMnemonic r.mnemonic = some op)
    (hok : assemblerAccepts op r.operand = true) :
    assembleFrom policy index (r :: rest) =
      (assembleFrom policy (index + 1) rest).map (prependInstr index (op.withOperand r.operand.toNat)) := by
  simp only [assembleFrom, hname, hok, if_true]
  cases assembleFrom policy (index + 1) rest <;> rfl

theorem assembleFrom_cons_of_outOfRange (hname : lookupMnemonic r.mnemonic = some op)
    (hbad : assemblerAccepts op r.operand = false) :
    assembleFrom policy index (r :: rest) = .error (.encodingRangeError index r.mnemonic r.operand) := by
  simp [assembleFrom, hname, hbad]

theorem assembleFrom_error_cons_of_unknown (hname : lookupMnemonic r.mnemonic = none) :
    assembleFrom .error index (r :: rest) = .error (.unknownMnemonicError index r.mnemonic) := by
  simp only [assembleFrom, hname]

theorem assembleFrom_skip_cons_of_unknown (hname : lookupMnemonic r.mnemonic = none) :
    assembleFrom .skip index (r :: rest) = assembleFrom .skip (index + 1) rest := by
  simp only [assembleFrom, hname]

end

/-- What precedes a failing suffix, each request of it accepted, only moves the index. -/
theorem assembleFrom_append_error {policy : Config.UnknownMnemonicPolicy} {good suffix : List Request}
    {e : AssemblyError} (hgood : ∀ r ∈ good, ∃ op, lookupMnemonic r.mnemonic = some op ∧
      assemblerAccepts op r.operand = true) {index : Nat}
    (he : assembleFrom policy (index + good.length) suffix = .error e) :
    assembleFrom policy index (good ++ suffix) = .error e := by
  induction good generalizing index with
  | nil => exact he
  | cons r good ih =>
    obtain ⟨⟨op, hname, hok⟩, hrest⟩ := List.forall_mem_cons.1 hgood
    rw [List.cons_append, assembleFrom_cons_of_accepted hname hok,
      ih hrest (by rwa [Nat.add_right_comm, Nat.add_assoc, ← List.length_cons (a := r)])]
    rfl

theorem requestedInstrs_cons (r : Request) (rest : List Request) :
    Machine.requestedInstrs (r :: rest) =
      ((lookupMnemonic r.mnemonic).map fun op => op.withOperand r.operand.toNat).toList ++
        Machine.requestedInstrs rest := by
  unfold Machine.requestedInstrs
  rw [List.filterMap_cons]
  cases lookupMnemonic r.mnemonic <;> rfl

/-- A buffer, under either policy, is the encodings of what its requests stand for, in order. -/
theorem buffer_of_assembleFrom {policy : Config.UnknownMnemonicPolicy} {index : Nat} {requests : List Request}
    {a : Assembly} (h : assembleFrom policy index requests = .ok a) :
    a.buffer = (Machine.requestedInstrs requests).flatMap encode := by
  induction requests generalizing index a with
  | nil =>
    obtain rfl := Except.ok.inj h
    rfl
  | cons r rest ih =>
    rw [requestedInstrs_cons, List.flatMap_append]
    cases hname : lookupMnemonic r.mnemonic with
    | none =>
      cases policy with
      | error => cases (assembleFrom_error_cons_of_unknown hname).symm.trans h
      | skip => exact ih ((assembleFrom_skip_cons_of_unknown hname).symm.trans h)
    | some op =>
      cases hok : assemblerAccepts op r.operand with
      | false => cases (assembleFrom_cons_of_outOfRange hname hok).symm.trans h
      | true =>
        rw [assembleFrom_cons_of_accepted hname hok] at h
        cases hrest : assembleFrom policy (index + 1) rest with
        | error e =>
          rw [hrest] at h
          cases h
        | ok b =>
          rw [hrest] at h
          obtain rfl := Except.ok.inj h
          simp [prependInstr, ih hrest]

/-- Requests all accepted assemble, whatever the policy. -/
theorem assembleFrom_ok {policy : Config.UnknownMnemonicPolicy} {requests : List Request}
    (hok : ∀ r ∈ requests, ∃ op, lookupMnemonic r.mnemonic = some op ∧ assemblerAccepts op r.operand = true)
    (index : Nat) : ∃ a, assembleFrom policy index requests = .ok a := by
  induction requests generalizing index with
  | nil => exact ⟨_, rfl⟩
  | cons r rest ih =>
    obtain ⟨⟨op, hname, hop⟩, hrest⟩ := List.forall_mem_cons.1 hok
    obtain ⟨a, ha⟩ := ih hrest (index + 1)
    rw [assembleFrom_cons_of_accepted hname hop, ha]
    exact ⟨_, rfl⟩

/-- The request that names an instruction stands for it. -/
theorem requestedInstrs_map {names : Opcode → String} (hnames : ∀ op, lookupMnemonic (names op) = some op)
    (instrs : List Instr) :
    Machine.requestedInstrs (instrs.map fun i => ⟨names i.opcode, i.operand⟩) = instrs := by
  induction instrs with
  | nil => rfl
  | cons i instrs ih => simp [requestedInstrs_cons, hnames, ih]

/-- Settles O55: accepted requests assemble to their encodings, and only move the index of one that fails. -/
theorem assemblyIsAllOrNothing : Obligations.AssemblyIsAllOrNothing := by
  refine ⟨fun instrs hok names hnames => ?_,
    fun policy good rest bad op hgood => ⟨fun hname hbad => ?_, fun hname => ?_⟩⟩
  · obtain ⟨a, ha⟩ := assembleFrom_ok (policy := .error)
      (requests := instrs.map fun i => ⟨names i.opcode, i.operand⟩)
      (List.forall_mem_map.2 fun i hi => ⟨i.opcode, hnames _, hok i hi⟩) 0
    exact ⟨a, ha, by rw [buffer_of_assembleFrom ha, requestedInstrs_map hnames]⟩
  · refine assembleFrom_append_error hgood ?_
    rw [Nat.zero_add]
    exact assembleFrom_cons_of_outOfRange hname hbad
  · refine assembleFrom_append_error hgood ?_
    rw [Nat.zero_add]
    exact assembleFrom_error_cons_of_unknown hname

end Sys2Proof

/-!
PROOF. Invariants of the step: the legal states, the bounded values (10_state.md section 10), the depth of the stack
(section 4), and the errors a run can report (70_reset_and_hazards.md section 3). Each holds after reset and is kept by
every step, so it holds of every reachable state.
-/

namespace Sys2Proof.Machine

variable {s t : State} {i : Instr}

/-! ## The shape of an invariant -/

/-- A step keeps what executed instructions and clean halts keep: a halted engine stays as it is. -/
theorem step_keeps {P : State → Prop} (hP : P s) (h : step s = .next t)
    (hexec : ∀ i w, s.runState = .running → decode s.prog s.pc = .instr i w → exec i s = .next t → P t)
    (hclean : ∀ r : HaltReason, r.isClean = true → P (haltWith r 0 s)) : P t := by
  rcases step_next h with ⟨-, rfl⟩ | ⟨hs, i, w, hd, hi⟩ | ⟨-, -, rfl⟩ | ⟨-, -, rfl⟩ | ⟨-, -, rfl⟩
  · exact hP
  · exact hexec i w hs hd hi
  · exact hclean .endOfProgram rfl
  · exact hclean .truncated rfl
  · exact hclean .unknownOpcode rfl

/-- What holds after reset and is kept by every step holds along the run. -/
theorem Reachable.invariant {prog : List Byte} {P : State → Prop} (hload : P (State.load prog))
    (hstep : ∀ s t, P s → Machine.step s = .next t → P t) (hr : Reachable prog s) : P s := by
  induction hr with
  | load => exact hload
  | step _ h ih => exact hstep _ _ ih h

theorem Reachable.prog_eq {prog : List Byte} (hr : Reachable prog s) : s.prog = prog :=
  hr.invariant (P := fun s => s.prog = prog) rfl fun _ _ hs h => (step_prog h).trans hs

/-! ## Reset -/

/-- Settles O1: every field at its reset value. -/
theorem resetStartsRunningAtZeroWithEmptyStackAndZeroMemory :
    Obligations.ResetStartsRunningAtZeroWithEmptyStackAndZeroMemory :=
  ⟨rfl, fun prog => ⟨load_prog prog, load_runState prog, load_pc prog, load_stack prog, fun _ => rfl⟩⟩

/-- Settles O2: the report registers at their reset values. -/
theorem resetClearsTheHaltReport : Obligations.ResetClearsTheHaltReport :=
  fun prog => ⟨load_haltReason prog, load_haltPc prog, load_haltAddr prog⟩

/-! ## The state stays legal -/

/-- An instruction writes data memory at most at one address, which it has checked. -/
theorem exec_mem_wf (hm : s.mem.wf) (h : exec i s = .next t) : t.mem.wf := by
  cases i with
  | loadConst k =>
    obtain rfl := execLoadConst_next h
    exact hm
  | readMem offset =>
    rw [execReadMem_mem h]
    exact hm
  | writeMem offset =>
    rcases execWriteMem_next h with ⟨-, rfl⟩ | ⟨_, -, rfl⟩ | ⟨_, _, v, -, ⟨h0, h1, rfl⟩ | ⟨-, rfl⟩⟩
    · exact hm
    · exact hm
    · exact memWrite_wf hm ((Int.toNat_lt h0).2 h1) v
    · exact hm
  | sqrt address =>
    rcases execSqrt_next h with ⟨-, rfl⟩ | ⟨_, v, -, ⟨-, rfl⟩ | ⟨-, ha, rfl⟩ | ⟨-, -, rfl⟩⟩
    · exact hm
    · exact hm
    · exact memWrite_wf hm ha (rootWord v)
    · exact hm

theorem HaltReason.ne_of_isClean {r q : HaltReason} (hr : r.isClean = true) (hq : q.isClean = false) : r ≠ q := by
  rintro rfl
  cases hr.symm.trans hq

theorem HaltReason.isError_of_isClean {r : HaltReason} (hr : r.isClean = true) : r.isError = false := by
  cases r with
  | endOfProgram | truncated | unknownOpcode => rfl
  | none | stackUnderflow | memoryRangeError | negativeRadicandError => cases hr

/-- A halt entry keeps the state legal when it names a cause and the address belongs to the cause. -/
theorem State.Legal.haltWith (hl : s.Legal) {r : HaltReason} (hr : r ≠ .none) {a : Int}
    (ha : if r = .memoryRangeError then a < 0 ∨ 65536 ≤ a else a = 0) (xs : List Word) :
    (haltWith r a { s with stack := xs }).Legal where
  memory := hl.memory
  pcInProgram := hl.pcInProgram
  reasonIffHalted := iff_of_false hr RunState.noConfusion
  haltPcIsPc := fun _ => rfl
  haltAddrOutOfRange := ha

theorem exec_legal {w : Nat} (hl : s.Legal) (hs : s.runState = .running)
    (hd : decode s.prog s.pc = .instr i w) (h : exec i s = .next t) : t.Legal := by
  have hnone : s.haltReason = .none := hl.reasonIffHalted.2 hs
  cases ht : t.runState with
  | running =>
    obtain ⟨hreason, -, haddr⟩ := exec_report_of_running h ht
    obtain ⟨-, hw, hfits, -⟩ := decode_eq_instr hd
    exact
      { memory := exec_mem_wf hl.memory h
        pcInProgram := by
          rw [exec_prog h, exec_pc_of_running h ht, ← hw]
          exact hfits
        reasonIffHalted := iff_of_true (hreason.trans hnone) ht
        haltPcIsPc := fun hh => absurd hh (ne_halted_of_running ht)
        haltAddrOutOfRange := by
          rw [hreason, haddr]
          exact hl.haltAddrOutOfRange }
  | halted =>
    have hrange := exec_memoryRangeError (by simp [hnone]) h
    obtain ⟨e, xs, rfl⟩ := exec_next_halted hs h ht
    refine hl.haltWith (HaltReason.isError_ne_none e.reason_isError) ?_ xs
    split
    · exact (hrange ‹_›).1
    · exact ExecError.address_of_reason_ne ‹_›

/-- Settles O45: an instruction advances within the bytes it decoded from, and every halt entry writes a report that
belongs to its cause. -/
theorem stepKeepsTheStateLegal : Obligations.StepKeepsTheStateLegal := fun s t hl h =>
  step_keeps hl h (fun _ _ hs hd hi => exec_legal hl hs hd hi) fun r hr =>
    hl.haltWith (HaltReason.ne_of_isClean hr rfl) (by rw [if_neg (HaltReason.ne_of_isClean hr rfl)]) s.stack

/-- Settles O46: nothing is listed, `pc` is 0 and the report is clear. -/
theorem loadedEngineIsLegal : Obligations.LoadedEngineIsLegal := fun _ =>
  { memory := reset_mem_wf
    pcInProgram := Nat.zero_le _
    reasonIffHalted := iff_of_true rfl rfl
    haltPcIsPc := fun h => RunState.noConfusion h
    haltAddrOutOfRange := rfl }

theorem Reachable.legal {prog : List Byte} (hr : Reachable prog s) : s.Legal :=
  hr.invariant (loadedEngineIsLegal prog) stepKeepsTheStateLegal

/-! ## Values stay in `[0, 8191]` -/

section
variable (hb : s.ValuesBounded) {v : Word}
include hb

theorem State.ValuesBounded.popped {xs ys : List Word} (hs : s.stack = xs ++ ys) :
    State.ValuesBounded { s with stack := xs } :=
  ⟨fun w hw => hb.stack w (hs ▸ List.mem_append_left ys hw), hb.memory⟩

theorem State.ValuesBounded.push (hv : wordInValueRange v) : (push v s).ValuesBounded :=
  ⟨fun w hw => (List.mem_append.1 hw).elim (hb.stack w) fun h => List.mem_singleton.1 h ▸ hv, hb.memory⟩

theorem State.ValuesBounded.advance (w : Nat) : (advance w s).ValuesBounded := ⟨hb.stack, hb.memory⟩

theorem State.ValuesBounded.haltWith (r : HaltReason) (a : Int) : (haltWith r a s).ValuesBounded :=
  ⟨hb.stack, hb.memory⟩

theorem State.ValuesBounded.store (hm : s.mem.wf) (hv : wordInValueRange v) (a : Nat) :
    (store a v s).ValuesBounded := by
  refine ⟨hb.stack, fun b => ?_⟩
  by_cases hab : b = a
  · rw [hab, store_mem, memRead_memWrite_same hm]
    exact hv
  · rw [store_mem, memRead_memWrite_ne hab]
    exact hb.memory b

theorem State.ValuesBounded.top {xs : List Word} (hs : s.stack = xs ++ [v]) : wordInValueRange v :=
  hb.stack v (by simp [hs])

end

theorem wordInValueRange_constantWord {k : Nat} (hk : k < 8192) : wordInValueRange (constantWord k) := by
  rw [wordInValueRange, constantWord_toInt (by omega)]
  omega

theorem wordInValueRange_rootWord {v : Word} (hv : wordInValueRange v) : wordInValueRange (rootWord v) := by
  obtain ⟨h0, h1⟩ := hv
  have hle := isqrt_le_self v.toInt.toNat
  rw [wordInValueRange, rootWord_toInt h0]
  omega

/-- A constant is a 13-bit field's value, a read gives a bounded word, and a store puts in memory a bounded word or
the root of one. -/
theorem exec_valuesBounded (hb : s.ValuesBounded) (hm : s.mem.wf) (hi : i.wellFormed = true)
    (h : exec i s = .next t) : t.ValuesBounded := by
  cases i with
  | loadConst k =>
    obtain rfl := execLoadConst_next h
    exact (hb.push (wordInValueRange_constantWord ((wellFormed_iff _).1 hi))).advance 2
  | readMem offset =>
    rcases execReadMem_next h with ⟨-, rfl⟩ | ⟨xs, b, hs, ⟨-, -, rfl⟩ | ⟨-, rfl⟩⟩
    · exact hb.haltWith _ _
    · exact ((hb.popped hs).push (hb.memory _)).advance 2
    · exact (hb.popped hs).haltWith _ _
  | writeMem offset =>
    rcases execWriteMem_next h with ⟨-, rfl⟩ | ⟨v, hs, rfl⟩ | ⟨xs, b, v, hs, ⟨-, -, rfl⟩ | ⟨-, rfl⟩⟩
    · exact hb.haltWith _ _
    · exact (hb.popped (ys := [v]) hs).haltWith _ _
    · exact ((hb.popped hs).store hm (hb.stack v (by simp [hs])) _).advance 2
    · exact (hb.popped hs).haltWith _ _
  | sqrt address =>
    rcases execSqrt_next h with ⟨-, rfl⟩ | ⟨xs, v, hs, ⟨-, rfl⟩ | ⟨-, -, rfl⟩ | ⟨-, -, rfl⟩⟩
    · exact hb.haltWith _ _
    · exact (hb.popped hs).haltWith _ _
    · exact ((hb.popped hs).store hm (wordInValueRange_rootWord (hb.top hs)) _).advance 5
    · exact (hb.popped hs).haltWith _ _

/-- Settles O47: what a step decodes is well-formed, and a halt entry keeps stack and memory. -/
theorem stepKeepsValuesBounded : Obligations.StepKeepsValuesBounded := fun _ _ hl hb h =>
  step_keeps hb h (fun _ _ _ hd hi => exec_valuesBounded hb hl.memory (wellFormed_of_decode hd) hi)
    fun r _ => hb.haltWith r 0

/-- Settles O48: the stack is empty and every word reads 0. -/
theorem loadedEngineHasBoundedValues : Obligations.LoadedEngineHasBoundedValues := fun _ =>
  ⟨fun _ hw => absurd hw List.not_mem_nil, fun _ => ⟨le_rfl, Int.natCast_nonneg 8191⟩⟩

/-! ## The depth of the stack -/

/-- Elements popped, whatever `pc` moved by. -/
theorem depth_le_of_popped {xs ys : List Word} (hs : s.stack = xs ++ ys) (w : Nat) :
    2 * xs.length + s.pc ≤ 2 * s.stack.length + (s.pc + w) := by
  rw [hs, List.length_append]
  omega

/-- Only `LoadConst` makes the stack deeper, by one element, and it moves `pc` by two bytes. -/
theorem exec_depth (h : exec i s = .next t) : 2 * t.stack.length + s.pc ≤ 2 * s.stack.length + t.pc := by
  cases i with
  | loadConst k =>
    obtain rfl := execLoadConst_next h
    simp [Nat.mul_add, Nat.add_comm, Nat.add_assoc]
  | readMem offset =>
    rcases execReadMem_next h with ⟨-, rfl⟩ | ⟨xs, b, hs, ⟨-, -, rfl⟩ | ⟨-, rfl⟩⟩
    · exact le_rfl
    · simp [hs]
    · exact depth_le_of_popped hs 0
  | writeMem offset =>
    rcases execWriteMem_next h with ⟨-, rfl⟩ | ⟨v, hs, rfl⟩ | ⟨xs, b, v, hs, ⟨-, -, rfl⟩ | ⟨-, rfl⟩⟩
    · exact le_rfl
    · exact depth_le_of_popped (ys := [v]) hs 0
    · exact depth_le_of_popped hs 2
    · exact depth_le_of_popped hs 0
  | sqrt address =>
    rcases execSqrt_next h with ⟨-, rfl⟩ | ⟨xs, v, hs, ⟨-, rfl⟩ | ⟨-, -, rfl⟩ | ⟨-, -, rfl⟩⟩
    · exact le_rfl
    · exact depth_le_of_popped hs 0
    · exact depth_le_of_popped hs 5
    · exact depth_le_of_popped hs 0

theorem step_depthBounded (hb : s.DepthBounded) (h : step s = .next t) : t.DepthBounded := by
  refine step_keeps hb h (fun i _ _ _ hi => ?_) fun _ _ => hb
  have hdepth := exec_depth hi
  simp only [State.DepthBounded] at hb ⊢
  omega

theorem Reachable.depthBounded {prog : List Byte} (hr : Reachable prog s) : s.DepthBounded :=
  hr.invariant (Nat.zero_le _) fun _ _ => step_depthBounded

theorem Reachable.pc_le {prog : List Byte} (hr : Reachable prog s) : s.pc ≤ prog.length :=
  hr.prog_eq ▸ hr.legal.pcInProgram

/-- Settles O49: twice the depth is at most `pc`, which stays within the Program. -/
theorem stackDepthStaysWithinHalfTheProgram : Obligations.StackDepthStaysWithinHalfTheProgram := by
  refine ⟨fun _ _ => step_depthBounded, fun prog s hr => ?_⟩
  have hdepth : 2 * s.stack.length ≤ s.pc := hr.depthBounded
  have hpc := hr.pc_le
  omega

/-! ## The errors a run can report -/

/-- With bounded values base plus a 13-bit offset is an address, so a range error names the operand of a `Sqrt`. -/
theorem exec_rangeError_of_valuesBounded (hb : s.ValuesBounded) (hi : i.wellFormed = true)
    (hs : s.haltReason ≠ .memoryRangeError) (h : exec i s = .next t) (hr : t.haltReason = .memoryRangeError) :
    ∃ address, i = .sqrt address ∧ 65536 ≤ address ∧ t.haltAddr = (address : Int) := by
  obtain ⟨hrange, ⟨hop, b, hmem, haddr⟩ | ⟨address, hsqrt, haddr⟩⟩ := exec_memoryRangeError hs h hr
  · obtain ⟨h0, h1⟩ := hb.stack b hmem
    have hoffset : i.operand < 8192 := by
      cases i with
      | sqrt address => exact absurd rfl hop
      | writeMem | loadConst | readMem => exact (wellFormed_iff _).1 hi
    omega
  · exact ⟨address, hsqrt, by omega, haddr⟩

theorem exec_errorsOnlyFromFarSqrt {w : Nat} (hl : s.Legal) (hb : s.ValuesBounded)
    (hs : s.runState = .running) (hd : decode s.prog s.pc = .instr i w) (h : exec i s = .next t) :
    t.ErrorsOnlyFromFarSqrt := by
  have hnone : s.haltReason = .none := hl.reasonIffHalted.2 hs
  constructor
  · rw [ne_eq, exec_negativeRadicandError_iff (by simp [hnone]) h]
    rintro ⟨address, xs, v, -, hstack, hv⟩
    exact absurd (hb.top hstack).1 (not_le.2 hv)
  · intro hr
    obtain ⟨address, rfl, ha, haddr⟩ :=
      exec_rangeError_of_valuesBounded hb (wellFormed_of_decode hd) (by simp [hnone]) h hr
    obtain ⟨-, rfl, -, -⟩ := decode_eq_instr hd
    have hhalt : t.haltPc = s.pc := by
      obtain ⟨e, xs, rfl⟩ := exec_next_of_new_reason hs h (by simp [hr, hnone])
      rfl
    exact ⟨address, by rw [exec_prog h, hhalt]; exact hd, ha, haddr⟩

theorem errorsOnlyFromFarSqrt_of_not_isError (hs : s.haltReason.isError = false) : s.ErrorsOnlyFromFarSqrt := by
  have hne {r : HaltReason} (hr : r.isError = true) : s.haltReason ≠ r := by
    rintro rfl
    cases hr.symm.trans hs
  exact ⟨hne rfl, fun h => absurd h (hne rfl)⟩

theorem step_errorsOnlyFromFarSqrt (hl : s.Legal) (hb : s.ValuesBounded) (he : s.ErrorsOnlyFromFarSqrt)
    (h : step s = .next t) : t.ErrorsOnlyFromFarSqrt :=
  step_keeps he h (fun _ _ hs hd hi => exec_errorsOnlyFromFarSqrt hl hb hs hd hi) fun _ hr =>
    errorsOnlyFromFarSqrt_of_not_isError (HaltReason.isError_of_isClean hr)

/-- Settles O58: with bounded values no radicand is negative and no sum leaves data memory; a clean halt is no error. -/
theorem stepKeepsErrorsOnlyFromFarSqrt : Obligations.StepKeepsErrorsOnlyFromFarSqrt :=
  ⟨fun s t hl hb he h => ⟨stepKeepsTheStateLegal s t hl h, stepKeepsValuesBounded s t hl hb h,
    step_errorsOnlyFromFarSqrt hl hb he h⟩, fun _ => errorsOnlyFromFarSqrt_of_not_isError rfl⟩

/-- Settles O50: the three invariants together hold along every run. -/
theorem errorsThatCannotHappenFromReset : Obligations.ErrorsThatCannotHappenFromReset := by
  intro prog s hr
  obtain ⟨hkeep, hload⟩ := stepKeepsErrorsOnlyFromFarSqrt
  have hinv : s.Legal ∧ s.ValuesBounded ∧ s.ErrorsOnlyFromFarSqrt :=
    hr.invariant (P := fun s => s.Legal ∧ s.ValuesBounded ∧ s.ErrorsOnlyFromFarSqrt)
      ⟨loadedEngineIsLegal prog, loadedEngineHasBoundedValues prog, hload prog⟩
      fun s t ⟨hl, hb, he⟩ h => hkeep s t hl hb he h
  obtain ⟨-, -, hnoNegative, hrange⟩ := hinv
  rw [hr.prog_eq] at hrange
  exact ⟨hnoNegative, hrange⟩

end Sys2Proof.Machine

/-!
PROOF. Whole runs (40_engine_fsm.md): `HALTED` is terminal (R87), a run halts within the bound of R88, and it reaches
one halted state, whose memory and report `run` returns (R92).
-/

namespace Sys2Proof.Machine

variable {s t : State}

theorem run_succ_of_step {u : State} (h : step s = .next u) (n : Nat) :
    Host.Core.run Sys2Proof.core (n + 1) s = Host.Core.run Sys2Proof.core n u := by
  simp only [Host.Core.run, core_step, h]

theorem run_of_halted (hs : s.runState = .halted) (n : Nat) : Host.Core.run Sys2Proof.core n s = .next s := by
  induction n with
  | zero => rfl
  | succ n ih => rw [run_succ_of_step (step_of_halted hs), ih]

/-- Settles O21: each step of a halted engine answers the same state. -/
theorem haltedEngineStaysAsItIs : Obligations.HaltedEngineStaysAsItIs :=
  fun _ hs n => run_of_halted hs n

theorem run_answers (n : Nat) (s : State) : ∃ t, Host.Core.run Sys2Proof.core n s = .next t := by
  induction n generalizing s with
  | zero => exact ⟨s, rfl⟩
  | succ n ih =>
    obtain ⟨u, hu⟩ := step_answers s
    rw [run_succ_of_step hu]
    exact ih u

theorem run_add {m : Nat} (h : Host.Core.run Sys2Proof.core m s = .next t) (n : Nat) :
    Host.Core.run Sys2Proof.core (m + n) s = Host.Core.run Sys2Proof.core n t := by
  induction m generalizing s with
  | zero =>
    obtain rfl : s = t := Host.Outcome.next.inj h
    rw [Nat.zero_add]
  | succ m ih =>
    obtain ⟨u, hu⟩ := step_answers s
    rw [run_succ_of_step hu] at h
    rw [Nat.add_right_comm, run_succ_of_step hu, ih h]

theorem Reachable.run {prog : List Byte} {n : Nat} (hr : Reachable prog s)
    (h : Host.Core.run Sys2Proof.core n s = .next t) : Reachable prog t := by
  induction n generalizing s with
  | zero =>
    obtain rfl : s = t := Host.Outcome.next.inj h
    exact hr
  | succ n ih =>
    obtain ⟨u, hu⟩ := step_answers s
    rw [run_succ_of_step hu] at h
    exact ih (hr.step hu) h

/-- Every reachable state is the answer of a run from reset. -/
theorem Reachable.exists_run {prog : List Byte} (hr : Reachable prog s) :
    ∃ n, Host.Core.run Sys2Proof.core n (State.load prog) = .next s := by
  induction hr with
  | load => exact ⟨0, rfl⟩
  | step _ h ih =>
    obtain ⟨n, hn⟩ := ih
    exact ⟨n + 1, by rw [run_add hn, run_succ_of_step h]; rfl⟩

theorem instr_width_ge (i : Instr) : 2 ≤ i.width := by
  rw [Instr.width, opcode_width_cases]
  split <;> decide

/-- A step that leaves the engine running executed an instruction, of at least two bytes. -/
theorem step_pc_of_running (h : step s = .next t) (ht : t.runState = .running) :
    s.runState = .running ∧ s.pc + 2 ≤ t.pc := by
  cases hs : s.runState with
  | halted =>
    obtain rfl : s = t := Host.Outcome.next.inj ((step_of_halted hs).symm.trans h)
    exact absurd hs (ne_halted_of_running ht)
  | running =>
    obtain ⟨i, _, -, hi⟩ := step_next_running hs h ht
    have hwidth := instr_width_ge i
    exact ⟨rfl, by rw [exec_pc_of_running hi ht]; omega⟩

theorem run_pc_of_running {n : Nat} (h : Host.Core.run Sys2Proof.core n s = .next t) (ht : t.runState = .running) :
    s.runState = .running ∧ s.pc + 2 * n ≤ t.pc := by
  induction n generalizing s with
  | zero =>
    obtain rfl : s = t := Host.Outcome.next.inj h
    exact ⟨ht, le_rfl⟩
  | succ n ih =>
    obtain ⟨u, hu⟩ := step_answers s
    rw [run_succ_of_step hu] at h
    obtain ⟨hrun, hpc⟩ := ih h
    obtain ⟨hs, hstep⟩ := step_pc_of_running hu hrun
    exact ⟨hs, by omega⟩

/-- An engine that still runs after `n` steps has `2 * n` bytes of its Program behind it. -/
theorem run_load_running_le {prog : List Byte} {n : Nat}
    (h : Host.Core.run Sys2Proof.core n (State.load prog) = .next t) (ht : t.runState = .running) :
    n ≤ prog.length / 2 := by
  obtain ⟨-, hpc⟩ := run_pc_of_running h ht
  have hle : t.pc ≤ prog.length := (Reachable.load.run h).pc_le
  rw [load_pc] at hpc
  omega

theorem run_load_stepBound (prog : List Byte) :
    ∃ t, Host.Core.run Sys2Proof.core (stepBound prog) (State.load prog) = .next t ∧ t.runState = .halted := by
  obtain ⟨t, h⟩ := run_answers (stepBound prog) (State.load prog)
  refine ⟨t, h, ?_⟩
  cases ht : t.runState with
  | halted => rfl
  | running => exact absurd (run_load_running_le h ht) (Nat.not_succ_le_self _)

/-- Settles O51: each executed instruction takes two bytes or more of the Program. -/
theorem everyRunHaltsWithinTheStepBound : Obligations.EveryRunHaltsWithinTheStepBound :=
  fun prog => ⟨run_load_stepBound prog, fun _ _ => run_load_running_le⟩

/-- A run reaches one halted state: the longer of two runs goes on from the end of the shorter. -/
theorem Reachable.halted_unique {prog : List Byte} (hr : Reachable prog s) (hs : s.runState = .halted)
    (hr' : Reachable prog t) (ht : t.runState = .halted) : s = t := by
  obtain ⟨m, hm⟩ := hr.exists_run
  obtain ⟨n, hn⟩ := hr'.exists_run
  have hs' := (run_add hm n).trans (run_of_halted hs n)
  have ht' := (run_add hn m).trans (run_of_halted ht m)
  rw [Nat.add_comm] at ht'
  exact Host.Outcome.next.inj (hs'.symm.trans ht')

/-- What `run` returns of its last state. -/
def State.report (s : State) : RunReport :=
  { finalMemory := s.mem, haltReason := s.haltReason, haltPc := s.haltPc, haltAddr := s.haltAddr }

/-- Settles O52: the state after the bound's steps is halted, and there is no other. -/
theorem runReturnsTheFinalMemoryAndReport : Obligations.RunReturnsTheFinalMemoryAndReport := by
  intro prog
  obtain ⟨t, h, ht⟩ := run_load_stepBound prog
  have hr : Reachable prog t := Reachable.load.run h
  have hrun : runProgram prog = some t.report := by simp only [runProgram, h, ht, if_true, State.report]
  exact ⟨t.report, t, hrun, hr, ht, rfl, rfl, rfl, rfl, fun u hu hhalt => hu.halted_unique hhalt hr ht⟩

end Sys2Proof.Machine

/-!
PROOF. The run of an encoding (30_encoding.md section 4): between two of its instructions the decoder reads the next
one, so `pc` goes from boundary to boundary and the only clean halt is the one at the end.
-/

namespace Sys2Proof.Machine

variable {s t : State} {instrs : List Instr}

/-- At a boundary: the end of the Program, or the next instruction as the wire keeps it. -/
theorem State.OnEncodingOf.decode_cases (ho : s.OnEncodingOf instrs) :
    (s.pc = s.prog.length ∧ decode s.prog s.pc = .endOfProgram) ∨
      ∃ (done : List Instr) (i : Instr) (rest : List Instr), instrs = done ++ i :: rest ∧
        s.pc = (done.flatMap encode).length ∧
        decode s.prog s.pc = .instr i.onWire i.width := by
  obtain ⟨hprog, ⟨done, rest, rfl, hpc⟩, -, -, -⟩ := ho
  cases rest with
  | nil =>
    rw [List.append_nil] at hprog
    have hend : s.pc = s.prog.length := by rw [hpc, hprog]
    exact .inl ⟨hend, decode_eq_endOfProgram_iff.2 hend.ge⟩
  | cons i rest =>
    refine .inr ⟨done, i, rest, rfl, hpc, ?_⟩
    rw [hprog, hpc, List.flatMap_append, List.flatMap_cons, ← List.append_assoc]
    exact decode_append_encode_append i _ _

theorem flatMap_encode_concat_length (done : List Instr) (i : Instr) :
    ((done ++ [i]).flatMap encode).length = (done.flatMap encode).length + i.width := by
  simp [List.flatMap_append, encode_length]

/-- An executed instruction ends at the next boundary, or in an error at this one. -/
theorem exec_onEncodingOf {done rest : List Instr} {i : Instr} (ho : s.OnEncodingOf (done ++ i :: rest))
    (hpc : s.pc = (done.flatMap encode).length) (hs : s.runState = .running)
    (h : exec i.onWire s = .next t) : t.OnEncodingOf (done ++ i :: rest) := by
  cases ht : t.runState with
  | running =>
    obtain ⟨hreason, hhaltPc, -⟩ := exec_report_of_running h ht
    have hnext : t.pc = ((done ++ [i]).flatMap encode).length := by
      rw [exec_pc_of_running h ht, onWire_width, hpc, flatMap_encode_concat_length]
    exact
      { program := (exec_prog h).trans ho.program
        boundary := ⟨done ++ [i], rest, by simp, hnext⟩
        notTruncated := hreason ▸ ho.notTruncated
        notUnknownOpcode := hreason ▸ ho.notUnknownOpcode
        endAtTheEnd := by
          rw [hreason, hhaltPc, exec_prog h]
          exact ho.endAtTheEnd }
  | halted =>
    obtain ⟨e, xs, rfl⟩ := exec_next_halted hs h ht
    have hne {r : HaltReason} (hr : r.isError = false) : e.reason ≠ r := by
      rintro rfl
      cases hr.symm.trans e.reason_isError
    exact ⟨ho.program, ho.boundary, hne rfl, hne rfl, fun hend => absurd hend (hne rfl)⟩

theorem step_onEncodingOf (ho : s.OnEncodingOf instrs) (h : step s = .next t) : t.OnEncodingOf instrs := by
  cases hs : s.runState with
  | halted =>
    obtain rfl : s = t := Host.Outcome.next.inj ((step_of_halted hs).symm.trans h)
    exact ho
  | running =>
    rcases ho.decode_cases with ⟨hend, hd⟩ | ⟨done, i, rest, rfl, hpc, hd⟩
    · obtain rfl := Host.Outcome.next.inj ((step_of_endOfProgram hs hd).symm.trans h)
      exact ⟨ho.program, ho.boundary, nofun, nofun, fun _ => hend⟩
    · exact exec_onEncodingOf ho hpc hs ((step_of_instr hs hd).symm.trans h)

theorem load_onEncodingOf {prog : List Byte} (hprog : prog = instrs.flatMap encode) :
    (State.load prog).OnEncodingOf instrs :=
  ⟨hprog, ⟨[], instrs, rfl, rfl⟩, nofun, nofun, nofun⟩

theorem load_assembled_onEncodingOf {policy : Config.UnknownMnemonicPolicy} {requests : List Request} {a : Assembly}
    (h : assemble policy requests = .ok a) : (State.load a.buffer).OnEncodingOf (requestedInstrs requests) :=
  load_onEncodingOf (buffer_of_assembleFrom h)

/-- Settles O59: from boundary to boundary, and reset stands at the first. -/
theorem stepStaysOnInstructionBoundaries : Obligations.StepStaysOnInstructionBoundaries :=
  ⟨fun _ _ _ => step_onEncodingOf, fun _ _ _ => load_assembled_onEncodingOf⟩

/-- Settles O57: an assembled Program is an encoding, so its run keeps to the boundaries. -/
theorem assembledProgramsEndAtTheirEndOrInAnError : Obligations.AssembledProgramsEndAtTheirEndOrInAnError := by
  rintro prog ⟨requests, a, h, rfl⟩ s hr
  have ho : s.OnEncodingOf (requestedInstrs requests) :=
    hr.invariant (load_assembled_onEncodingOf h) fun _ _ => step_onEncodingOf
  exact ⟨ho.notTruncated, ho.notUnknownOpcode, hr.prog_eq ▸ ho.endAtTheEnd⟩

end Sys2Proof.Machine
